-- ==== Sys2Proof/Word.lean ====
section
/-! DEFINITION. The word types of the block: what the spec treats as bits (R6, R7). Every value is unsigned. -/

namespace Sys2Proof

/-- One byte: a channel, a text byte, a response byte. -/
abbrev Byte := BitVec 8

/-- One packed pixel (PIXEL_BITS = 16), and the width of STATUS. -/
abbrev Half := BitVec 16

/-- One command word (CMD_BITS = 32). -/
abbrev Word := BitVec 32

/-- An output position or response length (POS_BITS = 17). -/
abbrev Position := BitVec 17

end Sys2Proof
end

