-- ==== Sys2Proof/Syntax.lean ====
section
/-! DEFINITION. The commands of opcode_table.json, what a host hands over in one command transfer (R60, R54), and
the names of the two faults of the command decoder (R130). -/

namespace Sys2Proof

/-- A pixel of three named 8-bit channels (R41): no order of channels in storage is assumed. -/
structure Pixel where
  r : Byte
  g : Byte
  b : Byte
  deriving DecidableEq, Repr, Inhabited

/-- The three commands, one constructor per row of opcode_table.json. Operands are unsigned fields of the word (R65). -/
inductive Instr where
  /-- PACK565 (R62, R84): pack one pixel. -/
  | pack565 (r g b : Byte)
  /-- FENC (R63, R85): encode one frame; its operand is the payload. -/
  | fenc
  /-- TENC (R64, R111): encode one text of n payload bytes. -/
  | tenc (n : BitVec 24)
  deriving DecidableEq, Repr

/-- Why a command word is turned away (R130). These are the SPEC's faults: the machine records them and goes on. -/
inductive CmdFault where
  /-- OP is 0x00 or 0x04 to 0xFF (R67). -/
  | illegalOp
  /-- A FENC word with a bit of [31:8] set (R68). -/
  | reservedNonzero
  deriving DecidableEq, Repr

/-- What a word decodes to (R66): a command, or the fault the decoder raises. -/
inductive Decoded where
  | command (i : Instr)
  | fault (c : CmdFault)
  deriving DecidableEq, Repr

/-- The payload of a command transfer: pixels for FRAME_IN in order p = 240·y + x (R41), bytes for TEXT_IN (R42).
Both lists are empty where the host sends no payload. -/
structure Payload where
  pixels : List Pixel
  text : List Byte
  deriving DecidableEq, Repr

/-- The empty payload. -/
def Payload.empty : Payload := { pixels := [], text := [] }

/-- One command transfer as the host offers it (R146): a word, legal or not, with its payload. -/
structure Offer where
  word : Word
  payload : Payload
  deriving DecidableEq, Repr

end Sys2Proof
end

