-- ==== Sys2Proof/Decode.lean ====
section
/-! DEFINITION. The command decoder of R66, total on every 32-bit word, and the encoder written from the formats of
R62, R63 and R64. -/

namespace Sys2Proof

/-- OP = word[7:0] (R61). -/
def opField (w : Word) : Byte := w.extractLsb' 0 8

/-- R = word[31:24] (R62). -/
def redField (w : Word) : Byte := w.extractLsb' 24 8

/-- G = word[23:16] (R62). -/
def greenField (w : Word) : Byte := w.extractLsb' 16 8

/-- B = word[15:8] (R62). -/
def blueField (w : Word) : Byte := w.extractLsb' 8 8

/-- word[31:8]: reserved in format F (R63), N in format T (R64). -/
def upperField (w : Word) : BitVec 24 := w.extractLsb' 8 24

/-- decode (R66): the OP check comes first; the reserved bits are looked at only when OP = 0x02 (R131). -/
def decode (w : Word) : Decoded :=
  if opField w = 0x01#8 then
    .command (.pack565 (redField w) (greenField w) (blueField w))
  else if opField w = 0x02#8 then
    if upperField w = 0#24 then .command .fenc else .fault .reservedNonzero
  else if opField w = 0x03#8 then
    .command (.tenc (upperField w))
  else
    .fault .illegalOp

/-- The word of a command: patterns of R62, R63 and R64. -/
def encode : Instr → Word
  | .pack565 r g b => r ++ g ++ b ++ 0x01#8
  | .fenc => 0x00000002#32
  | .tenc n => n ++ 0x03#8

/-- The command of a decoded word, if it is one. -/
def Decoded.instr? : Decoded → Option Instr
  | .command i => some i
  | .fault _ => none

/-- The command read from an instruction whose bits are w, bit 0 the least significant bit of the command word
(R6). A word is always 32 bits (R60, R70); bits at and above nbits are 0. -/
def decodeTableWord (nbits w : Nat) : Option Instr :=
  (decode (BitVec.ofNat 32 (w % 2 ^ nbits))).instr?

end Sys2Proof
end

