-- ==== Sys2Proof/Config.lean ====
section
/-! DEFINITION. What is fixed for the block and never changes as it runs: the parameters of R5 that have a value,
and the one free value the spec leaves open (R152). The OPEN parameters RESIZE and CMD_BYTE_ORDER are
arguments of the definitions that use them (Sys2Proof/Machine/System.lean), as R5 asks. -/

namespace Sys2Proof.Config

/-- FRAME_W (R5): columns of a frame. -/
@[simp] abbrev frameW : Nat := 240

/-- FRAME_H (R5): rows of a frame. -/
@[simp] abbrev frameH : Nat := 240

/-- FRAME_PIXELS (R5) = FRAME_W × FRAME_H. -/
@[simp] abbrev framePixels : Nat := 57600

/-- FRAME_BYTES (R5), the length of a FENC response and the capacity of RESP (R22). -/
@[simp] abbrev frameBytes : Nat := 115200

/-- BURST_MAX (R5): the most bytes in one burst. -/
@[simp] abbrev burstMax : Nat := 1024

/-- FRAME_BURSTS (R5): bursts of a FENC response. -/
@[simp] abbrev frameBursts : Nat := 113

/-- TEXT_WIDTH (R5): the length of a TENC response. -/
@[simp] abbrev textWidth : Nat := 128

/-- PAD_BYTE (R5, R114). -/
@[simp] abbrev padByte : BitVec 8 := 0x00#8

/-- Free value, log entry 9: does the n-th STATUS read that falls in the same step as a reset return the value
before the reset (true) or 0x0000 (false)? R152: "A model admits both". No body: nothing constrains it. -/
opaque resetReadGivesOld : Nat → Bool

end Sys2Proof.Config
end

