-- ==== Sys2Proof/Machine/State.lean ====
section
/-! DEFINITION. The state of the block (R20), the events of its host (R146, R158), and why a step can stop. -/

namespace Sys2Proof.Machine

/-- PHASE (R21). -/
inductive Phase where
  | idle
  | emit
  deriving DecidableEq, Repr

/-- RESP (R22) as (offset, byte) cells, offsets strictly rising. An unlisted offset has no value. -/
abbrev Memory := List Host.Cell

/-- A byte on the output port with the two flags it carries (R43). -/
structure OutByte where
  byte : Byte
  lastInBurst : Bool
  lastInResponse : Bool
  deriving DecidableEq, Repr

/-- What the host can do in a step without resetting the block (R146). -/
inductive HostMove where
  /-- Present the oldest command not yet taken on the command port. -/
  | offer
  /-- Be ready to take an output byte. -/
  | take
  /-- Read STATUS. -/
  | readStatus
  deriving DecidableEq, Repr

/-- One event of the step relation (R158). A reset names the host moves that fall in the same step (R152). -/
inductive Event where
  | move (m : HostMove)
  | reset (coincident : List HostMove)
  deriving DecidableEq, Repr

/-- The state of the block, and beside it the host's side of the interface as plain data. -/
structure State where
  /-- PHASE (R21). -/
  phase : Phase
  /-- RESP (R22). -/
  resp : Memory
  /-- RLEN (R23). -/
  rlen : Position
  /-- POS (R24). -/
  pos : Position
  /-- LAST_STATUS (R25). -/
  lastStatus : Byte
  /-- STICKY_FAULT (R26). -/
  stickyFault : Bool
  /-- FRAME_IN (R40, R41), filled only while a command is being accepted (R31). -/
  frameIn : List Pixel
  /-- TEXT_IN (R40, R42), filled only while a command is being accepted (R31). -/
  textIn : List Byte
  /-- The commands the host has still to get taken, oldest first; the head stands on the command port. -/
  offers : List Offer
  /-- The events still to come, the next one first. -/
  schedule : List Event
  /-- The bytes that have left the output port, newest first. -/
  emitted : List OutByte
  /-- The values STATUS reads have returned, newest first. -/
  statusReads : List Half
  /-- How many free values have been drawn (the model's own counter). -/
  draws : Nat
  deriving DecidableEq, Repr

/-- Why a step stops. The spec's own faults are not here: the machine records them and goes on (R132). -/
inductive Fault where
  /-- Raised by a command's meaning when its payload has not the shape R60 prescribes. R158: "no step"; R146: the
  host must not send it. Safe: the model stops where a real block might hang or misread (U10). -/
  | wrongPayload
  /-- Raised by a take that would read a RESP byte that has no value. U4: "a model that reads one must fault".
  Safe: no reachable state does it. -/
  | respNoValue
  deriving DecidableEq, Repr

/-- Why a command is given no meaning. -/
inductive Refusal where
  /-- Raised by an arm of exec that has no meaning yet; no arm does. Safe. -/
  | notModelled (mnemonic : String)
  deriving DecidableEq, Repr

/-- The state after reset (R33), with nothing in RESP, no command to offer and no event to come. -/
def State.reset : State where
  phase := .idle
  resp := []
  rlen := 0#17
  pos := 0#17
  lastStatus := 0x00#8
  stickyFault := false
  frameIn := []
  textIn := []
  offers := []
  schedule := []
  emitted := []
  statusReads := []
  draws := 0

end Sys2Proof.Machine
end

