-- ==== Sys2Proof/Machine/Flags.lean ====
section
/-! DEFINITION. The block has no condition flags (R29). What it shows the host as bits is here: the STATUS view
(R27) and the two flags of an emitted byte (R43, R86, R158). -/

namespace Sys2Proof.Machine

/-- BUSY (R27): 1 if PHASE = Emit, else 0. -/
def Phase.busy : Phase → BitVec 1
  | .idle => 0#1
  | .emit => 1#1

/-- STATUS (R27): LAST_STATUS in 15:8, zeros in 7:2, STICKY_FAULT in bit 1, BUSY in bit 0. -/
def State.status (s : State) : Half :=
  s.lastStatus ++ 0#6 ++ BitVec.ofBool s.stickyFault ++ s.phase.busy

/-- `last_in_response` (R43, R158): set only on byte RLEN − 1. -/
def lastInResponse (rlen pos : Position) : Bool :=
  pos.toNat + 1 == rlen.toNat

/-- `last_in_burst` (R86, R158): every 1024th byte of a FENC response, and the last byte of any response. -/
def lastInBurst (rlen pos : Position) : Bool :=
  (rlen.toNat == Config.frameBytes && (pos.toNat + 1) % Config.burstMax == 0) || lastInResponse rlen pos

end Sys2Proof.Machine
end

