-- ==== Sys2Proof/Machine/Ops.lean ====
section
/-! DEFINITION. The named operations on the state: reading and filling RESP (R8, R22), beginning a response (R84,
R85, R111), recording a fault (R132; the block's whole exception entry, R137, with no return from it),
emitting a byte (R158) and resetting the block (R33). -/

namespace Sys2Proof.Machine

/-- The byte RESP holds at offset k, if it has a value there. -/
def Memory.read : Memory → Nat → Option Byte
  | [], _ => none
  | (a, b) :: m, k => if a = k then some b else Memory.read m k

/-- RESP holding the bytes in order from offset `start` and nothing else. -/
def Memory.ofBytes (start : Nat) : List Byte → Memory
  | [] => []
  | b :: bs => (start, b) :: Memory.ofBytes (start + 1) bs

/-- The one form in which RESP is held: offsets strictly rising, all within the capacity of R22. An unlisted offset
has no value, so no entry can equal what an unlisted offset reads as. -/
abbrev Memory.wf (m : Memory) : Prop :=
  m.Pairwise (fun a b => a.1 < b.1) ∧ ∀ c ∈ m, c.1 < Config.frameBytes

/-- The fault code of R130. -/
def cmdFaultCode : CmdFault → Byte
  | .illegalOp => 0x01#8
  | .reservedNonzero => 0x02#8

/-- What accepting a command does (R84, R85, R111): RESP holds the response and nothing else (R22: offsets from RLEN
up have no value), RLEN its length, POS is 0, PHASE is Emit, LAST_STATUS is 0x00; the latched payload is
no state once RESP has been computed from it (R31). STICKY_FAULT is unchanged. -/
def beginResponse (response : List Byte) (length : Position) (s : State) : State :=
  { s with
    resp := Memory.ofBytes 0 response
    rlen := length
    pos := 0#17
    phase := .emit
    lastStatus := 0x00#8
    frameIn := []
    textIn := [] }

/-- The effect of a decode fault (R132): only LAST_STATUS and STICKY_FAULT change. -/
def recordFault (c : CmdFault) (s : State) : State :=
  { s with lastStatus := cmdFaultCode c, stickyFault := true }

/-- RESP[POS], if POS < RLEN and the byte has a value (R22). -/
def currentByte (s : State) : Option Byte :=
  if s.pos.toNat < s.rlen.toNat then s.resp.read s.pos.toNat else none

/-- One emit step (R158): the byte leaves with its flags, POS advances, and after byte RLEN − 1 PHASE is Idle. -/
def emitByte (b : Byte) (s : State) : State :=
  { s with
    emitted := ⟨b, lastInBurst s.rlen s.pos, lastInResponse s.rlen s.pos⟩ :: s.emitted
    pos := s.pos + 1#17
    phase := if s.pos + 1#17 = s.rlen then .idle else s.phase }

/-- Reset (R150): every state element takes its value of R33; what has left the block and what the host has still to
do are not the block's. -/
def resetBlock (s : State) : State :=
  { s with
    phase := .idle
    resp := []
    rlen := 0#17
    pos := 0#17
    lastStatus := 0x00#8
    stickyFault := false
    frameIn := []
    textIn := [] }

end Sys2Proof.Machine
end

