-- ==== Sys2Proof/Machine/Operands.lean ====
section
/-! DEFINITION. The payload operands (R65): latching them into FRAME_IN and TEXT_IN (R54), and the check R158 calls
"require" (R60). Field operands are the fields of the decoded command (Sys2Proof/Decode.lean). -/

namespace Sys2Proof.Machine

/-- Whether a list has exactly n elements, looking at no more than n + 1 of them. -/
def hasLength {α : Type} : Nat → List α → Bool
  | 0, [] => true
  | 0, _ :: _ => false
  | _ + 1, [] => false
  | n + 1, _ :: as => hasLength n as

/-- Latch a payload at the command-accept step (R54). -/
def latchPayload (p : Payload) (s : State) : State :=
  { s with frameIn := p.pixels, textIn := p.text }

/-- "require payload = empty" (R158, PACK565). -/
def payloadEmpty (s : State) : Bool := hasLength 0 s.frameIn && hasLength 0 s.textIn

/-- "require payload = 57,600 pixels" (R158, FENC). -/
def payloadIsFrame (s : State) : Bool := hasLength Config.framePixels s.frameIn && hasLength 0 s.textIn

/-- "require len(payload) == N" (R158, TENC). -/
def payloadIsText (n : BitVec 24) (s : State) : Bool := hasLength 0 s.frameIn && hasLength n.toNat s.textIn

/-- A command whose payload has the prescribed shape begins its response; with any other payload there is no step
(R146, R158: host duty). -/
def respondIf (shape : Bool) (response : List Byte) (length : Position) (s : State) :
    Host.Outcome State Fault Refusal :=
  match shape with
  | true => .next (beginResponse response length s)
  | false => .fault .wrongPayload

end Sys2Proof.Machine
end

