-- ==== Sys2Proof/Machine/Pixel.lean ====
section
/-! DEFINITION. The pixel pack of R80, the order of its two bytes (R44), and the two unpacks of R90 (no command
computes them; R91 and R92 speak of them). -/

namespace Sys2Proof.Machine

/-- pack565 (R80): `((R & 0xF8) << 8) | ((G & 0xFC) << 3) | (B >> 3)`, evaluated at 16 bits (R7). -/
def pack565 (r g b : Byte) : Half :=
  ((r.setWidth 16 &&& 0x00F8#16) <<< 8) ||| ((g.setWidth 16 &&& 0x00FC#16) <<< 3) ||| (b.setWidth 16 >>> 3)

/-- packed[15:8] (R44). -/
def highByte (v : Half) : Byte := v.extractLsb' 8 8

/-- packed[7:0] (R44). -/
def lowByte (v : Half) : Byte := v.extractLsb' 0 8

/-- A packed value as it is serialized: "big-endian (high byte first)" (R44). -/
def bigEndian (v : Half) : List Byte := [highByte v, lowByte v]

/-- The two response bytes of a pixel. -/
def pixelBytes (p : Pixel) : List Byte := bigEndian (pack565 p.r p.g p.b)

/-- The reference unpack (R90): zero fill. -/
def unpack565 (v : Half) : Pixel where
  r := v.extractLsb' 11 5 ++ 0#3
  g := v.extractLsb' 5 6 ++ 0#2
  b := v.extractLsb' 0 5 ++ 0#3

/-- The other common decoder (R90): bit replication. -/
def unpack565Replicate (v : Half) : Pixel where
  r := v.extractLsb' 11 5 ++ v.extractLsb' 13 3
  g := v.extractLsb' 5 6 ++ v.extractLsb' 9 2
  b := v.extractLsb' 0 5 ++ v.extractLsb' 2 3

end Sys2Proof.Machine
end

