-- ==== Sys2Proof/Machine/FrameEncoder.lean ====
section
/-! DEFINITION. The frame encoder: the mirror (R82), the serialization (R83), the bursts (R86), and the commands PACK565
(R84) and FENC (R85). A frame is its pixels in order p = 240·y + x (R41). -/

namespace Sys2Proof.Machine

/-- The horizontal mirror of the first `rows` rows (R82): each row's columns reversed, rows in order. -/
def mirrorRows {α : Type} : Nat → List α → List α
  | 0, _ => []
  | rows + 1, f => (f.take Config.frameW).reverse ++ mirrorRows rows (f.drop Config.frameW)

/-- The mirrored frame M(y, x) = F(y, 239 − x) (R82), of pixels or of packed values (R88). -/
def mirror {α : Type} (f : List α) : List α := mirrorRows Config.frameH f

/-- Every pixel packed, high byte first, with nothing between (R83, R93). -/
def packAll : List Pixel → List Byte
  | [] => []
  | p :: ps => pixelBytes p ++ packAll ps

/-- The FENC response (R83). -/
def serialize (f : List Pixel) : List Byte := packAll (mirror f)

/-- Burst b of a FENC response (R86): bytes 1024·b up to but not including min(1024·(b+1), 115200). -/
def burst (b : Nat) (stream : List Byte) : List Byte :=
  (stream.take (min (Config.burstMax * (b + 1)) Config.frameBytes)).drop (Config.burstMax * b)

/-- PACK565 (R84). -/
def execPack565 (r g b : Byte) (s : State) : Host.Outcome State Fault Refusal :=
  respondIf (payloadEmpty s) (bigEndian (pack565 r g b)) 2#17 s

/-- FENC (R85). -/
def execFenc (s : State) : Host.Outcome State Fault Refusal :=
  respondIf (payloadIsFrame s) (serialize s.frameIn) 115200#17 s

end Sys2Proof.Machine
end

