-- ==== Sys2Proof/Machine/TextCodec.lean ====
section
/-! DEFINITION. The fixed-width text codec: fixed128 (R110) and the command TENC (R111). -/

namespace Sys2Proof.Machine

/-- The first `width` bytes of a text, null-padded at the end where it is shorter (R110, R114). -/
def padTo : Nat → List Byte → List Byte
  | 0, _ => []
  | width + 1, [] => Config.padByte :: padTo width []
  | width + 1, b :: bs => b :: padTo width bs

/-- fixed128 (R110): exactly 128 bytes, cut byte-exactly (R113). -/
def fixed128 (text : List Byte) : List Byte := padTo Config.textWidth text

/-- TENC (R111). -/
def execTenc (n : BitVec 24) (s : State) : Host.Outcome State Fault Refusal :=
  respondIf (payloadIsText n s) (fixed128 s.textIn) 128#17 s

end Sys2Proof.Machine
end

