-- ==== Sys2Proof/Machine/Dispatch.lean ====
section
/-! DEFINITION. One arm per command, each one call of that command's meaning. -/

namespace Sys2Proof.Machine

/-- The command-accept step of a decoded command whose payload is latched. -/
def exec (i : Instr) (s : State) : Host.Outcome State Fault Refusal :=
  match i with
  | .pack565 r g b => Sys2Proof.Machine.execPack565 r g b s
  | .fenc => Sys2Proof.Machine.execFenc s
  | .tenc n => Sys2Proof.Machine.execTenc n s

end Sys2Proof.Machine
end

