-- ==== Sys2Proof/Machine/Port.lean ====
section
/-! DEFINITION. The host interface (R146) and the step relation (R158), event by event. -/

namespace Sys2Proof.Machine

/-- The command-accept step for an offer on the port in Idle (R158): decode first, on the word alone (R131); a fault
takes no payload (R132); a command latches its payload (R54) and runs. -/
def acceptOffer (o : Offer) (s : State) : Host.Outcome State Fault Refusal :=
  match decode o.word with
  | .fault c => .next (recordFault c s)
  | .command i => exec i (latchPayload o.payload s)

/-- The event Offer (R158): in Emit the command is held, neither lost nor faulted (R135, R154); in Idle the oldest
command is taken. -/
def hostOffer (s : State) : Host.Outcome State Fault Refusal :=
  match s.phase, s.offers with
  | .emit, _ => .next s
  | .idle, [] => .next s
  | .idle, o :: os => acceptOffer o { s with offers := os }

/-- The event Take (R158): in Idle no step; in Emit RESP[POS] is emitted. A byte with no value must not be read
(R22, U4). -/
def hostTake (s : State) : Host.Outcome State Fault Refusal :=
  match s.phase with
  | .idle => .next s
  | .emit =>
    match currentByte s with
    | some b => .next (emitByte b s)
    | none => .fault .respNoValue

/-- The event ReadStatus (R158): STATUS goes to the host, the block is unchanged (R27). -/
def hostReadStatus (s : State) : State :=
  { s with statusReads := s.status :: s.statusReads }

/-- The host moves that fall in the same step as a reset (R152): an offer is not taken, a byte is not emitted, and a
STATUS read returns either `old`, the value before the reset, or 0x0000: a free value. -/
def coincidentMoves (old : Half) : List HostMove → State → State
  | [], s => s
  | .offer :: ms, s => coincidentMoves old ms s
  | .take :: ms, s => coincidentMoves old ms s
  | .readStatus :: ms, s =>
    coincidentMoves old ms
      { s with
        statusReads := (if Config.resetReadGivesOld s.draws then old else 0x0000#16) :: s.statusReads
        draws := s.draws + 1 }

/-- The event Reset (R150, R158), with what falls in the same step (R152). -/
def hostReset (coincident : List HostMove) (s : State) : State :=
  coincidentMoves s.status coincident (resetBlock s)

/-- One event of the step relation (R158). -/
def handleEvent (e : Event) (s : State) : Host.Outcome State Fault Refusal :=
  match e with
  | .move .offer => hostOffer s
  | .move .take => hostTake s
  | .move .readStatus => .next (hostReadStatus s)
  | .reset ms => .next (hostReset ms s)

/-- The next event, if there is one. With none the block waits, for any length of time, and its state survives
(R145, R155). -/
def nextEvent (s : State) : Host.Outcome State Fault Refusal :=
  match s.schedule with
  | [] => .next s
  | e :: es => handleEvent e { s with schedule := es }

/-- The payload of zeros that has the shape the word's command prescribes (R60): used only to place a command word
that comes without a payload. -/
def zeroPayload (w : Word) : Payload :=
  match decode w with
  | .command (.pack565 _ _ _) => Payload.empty
  | .command .fenc => { pixels := List.replicate Config.framePixels ⟨0, 0, 0⟩, text := [] }
  | .command (.tenc n) => { pixels := [], text := List.replicate n.toNat 0x00 }
  | .fault _ => Payload.empty

/-- The state with a command word on the command port, ready to be taken by the next step: no response in flight
(R154), the word with a payload of zeros as the oldest offer, and the offer as the next event. -/
def placeCommand (w : Word) (s : State) : State :=
  { s with
    phase := .idle
    pos := s.rlen
    offers := { word := w, payload := zeroPayload w } :: s.offers
    schedule := .move .offer :: s.schedule }

end Sys2Proof.Machine
end

