-- ==== Sys2Proof/Machine/Step.lean ====
section
/-! DEFINITION. One step of the machine: the next event of the host, as R158 says. -/

namespace Sys2Proof.Machine

/-- One step (R158). -/
def step (s : State) : Host.Outcome State Fault Refusal := nextEvent s

/-- The state with the command word w on the command port, so that the next step takes it. A command word is always
32 bits (R60), and bits at and above nbits are 0. -/
def State.withFetchWord (s : State) (nbits w : Nat) : State :=
  placeCommand (BitVec.ofNat 32 (w % 2 ^ nbits)) s

end Sys2Proof.Machine
end

