-- ==== Sys2Proof/Machine/Assembler.lean ====
section
/-! DEFINITION. The assembler of R71 and R72, over parsed lines: what each line sends on the command port, and which
lines are rejected. Names and texts are lists of characters. The UTF-8 encoding of a text is the host's
function (R72, R118), an argument here. The written form of a line is read in
Sys2Proof/Machine/AsmText.lean. -/

namespace Sys2Proof.Machine

/-- A channel of a `.frame` directive as a formula of row y and column x (R71). -/
inductive AsmExpr where
  | num (n : Nat)
  | x
  | y
  | add (a b : AsmExpr)
  | mod (a b : AsmExpr)
  deriving DecidableEq, Repr

/-- The value of a channel formula at row y and column x. A remainder by 0 has none: the line is rejected. -/
def AsmExpr.eval (y x : Nat) : AsmExpr → Option Nat
  | .num n => some n
  | .x => some x
  | .y => some y
  | .add a b =>
    match a.eval y x, b.eval y x with
    | some u, some v => some (u + v)
    | _, _ => none
  | .mod a b =>
    match a.eval y x, b.eval y x with
    | some u, some v => if v = 0 then none else some (u % v)
    | _, _ => none

/-- One line of a command program (R71, R72). -/
inductive AsmLine where
  /-- Nothing but space or a comment. -/
  | blank
  /-- `pack565 R, G, B` -/
  | pack565 (r g b : Nat)
  /-- `fenc FRAME` -/
  | fenc (frame : List Char)
  /-- `tenc [b0, b1, …]` -/
  | tenc (bytes : List Nat)
  /-- `tstr "text"` -/
  | tstr (text : List Char)
  /-- `.word 0xHHHHHHHH` -/
  | word (w : Nat)
  /-- `.frame NAME = (R, G, B)` -/
  | frame (name : List Char) (r g b : AsmExpr)
  deriving DecidableEq, Repr

/-- A number as a byte, or nothing above 255 (R71). -/
def asmByte (n : Nat) : Option Byte := if n ≤ 255 then some (BitVec.ofNat 8 n) else none

/-- Every number as a byte, or nothing if one is above 255. -/
def asmBytes : List Nat → Option (List Byte)
  | [] => some []
  | n :: ns =>
    match asmByte n, asmBytes ns with
    | some b, some bs => some (b :: bs)
    | _, _ => none

/-- The transfer of a list of text bytes: the word {N[23:0], 0x03} with the bytes (R71); nothing above 16,777,215
bytes. -/
def asmTenc (bytes : List Byte) : Option Offer :=
  if bytes.length < 2 ^ 24 then
    some { word := encode (.tenc (BitVec.ofNat 24 bytes.length)), payload := { pixels := [], text := bytes } }
  else none

/-- A channel of pixel p = 240·y + x, or nothing if its value is above 255 (R71). -/
def asmChannel (c : AsmExpr) (p : Nat) : Option Byte :=
  match c.eval (p / 240) (p % 240) with
  | some n => asmByte n
  | none => none

/-- One pixel of a `.frame` directive. -/
def asmPixel (r g b : AsmExpr) (p : Nat) : Option Pixel :=
  match asmChannel r p, asmChannel g p, asmChannel b p with
  | some r, some g, some b => some ⟨r, g, b⟩
  | _, _, _ => none

/-- The first n pixels from number p on, in order p = 240·y + x (R71). -/
def asmPixels (r g b : AsmExpr) : Nat → Nat → Option (List Pixel)
  | 0, _ => some []
  | n + 1, p =>
    match asmPixel r g b p, asmPixels r g b n (p + 1) with
    | some q, some qs => some (q :: qs)
    | _, _ => none

/-- The 57,600 pixels of a `.frame` directive. -/
def asmFrame (r g b : AsmExpr) : Option (List Pixel) := asmPixels r g b Config.framePixels 0

/-- The frame a name stands for; a later directive of the same name hides an earlier one. -/
def asmLookup (name : List Char) : List (List Char × List Pixel) → Option (List Pixel)
  | [] => none
  | (k, f) :: rest => if k = name then some f else asmLookup name rest

/-- The transfer one command line sends, under the frames named so far; nothing where the line is rejected (R71). -/
def asmOffer (utf8 : List Char → List Byte) (frames : List (List Char × List Pixel)) : AsmLine → Option Offer
  | .pack565 r g b =>
    match asmByte r, asmByte g, asmByte b with
    | some r, some g, some b => some { word := encode (.pack565 r g b), payload := Payload.empty }
    | _, _, _ => none
  | .fenc name =>
    match asmLookup name frames with
    | some f => some { word := encode .fenc, payload := { pixels := f, text := [] } }
    | none => none
  | .tenc ns =>
    match asmBytes ns with
    | some bs => asmTenc bs
    | none => none
  | .tstr text => asmTenc (utf8 text)
  | .word w => if w < 2 ^ 32 then some { word := BitVec.ofNat 32 w, payload := Payload.empty } else none
  | .blank => none
  | .frame _ _ _ _ => none

/-- The transfers a program sends, in order, or nothing if a line is rejected. -/
def assemble (utf8 : List Char → List Byte) (frames : List (List Char × List Pixel)) :
    List AsmLine → Option (List Offer)
  | [] => some []
  | .blank :: ls => assemble utf8 frames ls
  | .frame name r g b :: ls =>
    match asmFrame r g b with
    | some f => assemble utf8 ((name, f) :: frames) ls
    | none => none
  | l :: ls =>
    match asmOffer utf8 frames l, assemble utf8 frames ls with
    | some o, some os => some (o :: os)
    | _, _ => none

end Sys2Proof.Machine
end

