-- ==== Sys2Proof/Machine/AsmText.lean ====
section
/-! DEFINITION. The written form of a command program (R71, R72): characters to tokens, tokens to lines. R71 gives the
forms of the lines and of numbers; what it leaves open (which characters make a name, the grammar of a
channel formula, the repetition `v × n` that Program 2 of 95_test_vectors.md writes in a `tenc` list and
no form of R71 gives) is fixed here: DESIGN CHOICE, log entry 14. -/

namespace Sys2Proof.Machine

/-- A token of a line. -/
inductive AsmToken where
  | name (cs : List Char)
  | num (n : Nat)
  | str (cs : List Char)
  | sym (c : Char)
  deriving DecidableEq, Repr

/-- Where the reader of a line stands; texts read so far are newest character first. -/
inductive LexMode where
  | between
  | inWord (acc : List Char)
  | inText (acc : List Char)
  | afterBackslash (acc : List Char)
  | inComment
  deriving DecidableEq, Repr

/-- The value of a digit below the base (10 or 16). -/
def digitValue (base : Nat) (c : Char) : Option Nat :=
  let n := c.toNat
  if 48 ≤ n ∧ n ≤ 57 then some (n - 48)
  else if base = 16 ∧ 97 ≤ n ∧ n ≤ 102 then some (n - 87)
  else if base = 16 ∧ 65 ≤ n ∧ n ≤ 70 then some (n - 55)
  else none

/-- A run of digits, most significant first, added to the value read so far. -/
def digitsValue (base : Nat) : Nat → List Char → Option Nat
  | acc, [] => some acc
  | acc, c :: cs =>
    match digitValue base c with
    | some d => digitsValue base (acc * base + d) cs
    | none => none

/-- "Numbers are decimal or 0x hexadecimal" (R71). -/
def numberValue : List Char → Option Nat
  | '0' :: 'x' :: c :: cs => digitsValue 16 0 (c :: cs)
  | cs => digitsValue 10 0 cs

/-- A character of a name or a number: a letter, a digit, a dot or an underscore. -/
def isWordChar (c : Char) : Bool :=
  let n := c.toNat
  (48 ≤ n && n ≤ 57) || (65 ≤ n && n ≤ 90) || (97 ≤ n && n ≤ 122) || n == 46 || n == 95

/-- A word is a number if it begins with a digit, and else a name. -/
def wordToken (cs : List Char) : Option AsmToken :=
  match cs with
  | [] => none
  | c :: _ =>
    match digitValue 10 c with
    | some _ =>
      match numberValue cs with
      | some n => some (.num n)
      | none => none
    | none => some (.name cs)

/-- The marks that are tokens by themselves: those of R71's forms, those of a channel formula, and the × of a
repetition (DESIGN CHOICE, log entry 14). -/
def isSymbolChar (c : Char) : Bool :=
  c == ',' || c == '[' || c == ']' || c == '(' || c == ')' || c == '=' || c == '+' || c == '×'

/-- Read one character between tokens: the new mode and the token it makes by itself. -/
def lexStart (c : Char) : Option (LexMode × List AsmToken) :=
  if c = ' ' ∨ c = '\t' ∨ c = '\r' then some (.between, [])
  else if c = ';' then some (.inComment, [])
  else if c = '"' then some (.inText [], [])
  else if isWordChar c then some (.inWord [c], [])
  else if isSymbolChar c then some (.between, [.sym c])
  else none

/-- Read one character: the new mode and the tokens it completes, in order. -/
def lexChar (m : LexMode) (c : Char) : Option (LexMode × List AsmToken) :=
  match m with
  | .between => lexStart c
  | .inWord acc =>
    if isWordChar c then some (.inWord (c :: acc), [])
    else
      match wordToken acc.reverse, lexStart c with
      | some t, some (m', ts) => some (m', t :: ts)
      | _, _ => none
  | .inText acc =>
    if c = '"' then some (.between, [.str acc.reverse])
    else if c = '\\' then some (.afterBackslash acc, [])
    else some (.inText (c :: acc), [])
  | .afterBackslash acc =>
    if c = 'n' then some (.inText ('\n' :: acc), [])
    else if c = '"' ∨ c = '\\' then some (.inText (c :: acc), [])
    else none
  | .inComment => some (.inComment, [])

/-- The tokens at the end of a line; a text that is not closed is rejected. -/
def lexEnd : LexMode → Option (List AsmToken)
  | .between => some []
  | .inComment => some []
  | .inWord acc =>
    match wordToken acc.reverse with
    | some t => some [t]
    | none => none
  | .inText _ => none
  | .afterBackslash _ => none

/-- The tokens of a line. -/
def lexLine : LexMode → List Char → Option (List AsmToken)
  | m, [] => lexEnd m
  | m, c :: cs =>
    match lexChar m c with
    | some (m', ts) =>
      match lexLine m' cs with
      | some rest => some (ts ++ rest)
      | none => none
    | none => none

/-- The items of a `tenc` list after the first, up to the closing bracket that ends the line. An item is a number, or a
number repeated, `v × n` for n bytes v (DESIGN CHOICE, log entry 14: Program 2 writes it so, and R71 gives no
form for it). -/
def parseByteTail : List AsmToken → Option (List Nat)
  | [.sym ']'] => some []
  | .sym ',' :: .num v :: .sym '×' :: .num n :: ts =>
    match parseByteTail ts with
    | some ns => some (List.replicate n v ++ ns)
    | none => none
  | .sym ',' :: .num v :: ts =>
    match parseByteTail ts with
    | some ns => some (v :: ns)
    | none => none
  | _ => none

/-- The list after `tenc [`: empty, or items with commas between them. -/
def parseByteList : List AsmToken → Option (List Nat)
  | [.sym ']'] => some []
  | ts => parseByteTail (.sym ',' :: ts)

mutual

/-- A term: a number, x, y, or a formula in parentheses. The fuel bounds the nesting. -/
def parseTerm : Nat → List AsmToken → Option (AsmExpr × List AsmToken)
  | 0, _ => none
  | _ + 1, .num n :: ts => some (.num n, ts)
  | _ + 1, .name ['x'] :: ts => some (.x, ts)
  | _ + 1, .name ['y'] :: ts => some (.y, ts)
  | fuel + 1, .sym '(' :: ts =>
    match parseTerm fuel ts with
    | some (a, rest) =>
      match parseOps fuel a rest with
      | some (e, .sym ')' :: rest') => some (e, rest')
      | _ => none
    | none => none
  | _ + 1, _ => none

/-- The sums and remainders that follow a first term, from the left. -/
def parseOps : Nat → AsmExpr → List AsmToken → Option (AsmExpr × List AsmToken)
  | 0, _, _ => none
  | fuel + 1, a, .sym '+' :: ts =>
    match parseTerm fuel ts with
    | some (b, rest) => parseOps fuel (.add a b) rest
    | none => none
  | fuel + 1, a, .name ['m', 'o', 'd'] :: ts =>
    match parseTerm fuel ts with
    | some (b, rest) => parseOps fuel (.mod a b) rest
    | none => none
  | _ + 1, a, ts => some (a, ts)

end

/-- A channel formula. -/
def parseExpr (fuel : Nat) (ts : List AsmToken) : Option (AsmExpr × List AsmToken) :=
  match parseTerm fuel ts with
  | some (a, rest) => parseOps fuel a rest
  | none => none

/-- The three formulas of a `.frame` directive, after the opening parenthesis. -/
def parseFrame (name : List Char) (fuel : Nat) (ts : List AsmToken) : Option AsmLine :=
  match parseExpr fuel ts with
  | some (r, .sym ',' :: ts₁) =>
    match parseExpr fuel ts₁ with
    | some (g, .sym ',' :: ts₂) =>
      match parseExpr fuel ts₂ with
      | some (b, [.sym ')']) => some (.frame name r g b)
      | _ => none
    | _ => none
  | _ => none

/-- The line a list of tokens stands for; "any other mnemonic" is rejected (R71). -/
def parseLine (ts : List AsmToken) : Option AsmLine :=
  match ts with
  | [] => some .blank
  | .name cmd :: rest =>
    if cmd = ['p', 'a', 'c', 'k', '5', '6', '5'] then
      match rest with
      | [.num r, .sym ',', .num g, .sym ',', .num b] => some (.pack565 r g b)
      | _ => none
    else if cmd = ['f', 'e', 'n', 'c'] then
      match rest with
      | [.name f] => some (.fenc f)
      | _ => none
    else if cmd = ['t', 'e', 'n', 'c'] then
      match rest with
      | .sym '[' :: bs =>
        match parseByteList bs with
        | some ns => some (.tenc ns)
        | none => none
      | _ => none
    else if cmd = ['t', 's', 't', 'r'] then
      match rest with
      | [.str s] => some (.tstr s)
      | _ => none
    else if cmd = ['.', 'w', 'o', 'r', 'd'] then
      match rest with
      | [.num w] => some (.word w)
      | _ => none
    else if cmd = ['.', 'f', 'r', 'a', 'm', 'e'] then
      match rest with
      | .name f :: .sym '=' :: .sym '(' :: fs => parseFrame f (2 * fs.length + 2) fs
      | _ => none
    else none
  | _ => none

/-- The line that characters stand for (R71). -/
def readLine (cs : List Char) : Option AsmLine :=
  match lexLine .between cs with
  | some ts => parseLine ts
  | none => none

/-- Every line of a program, or nothing if one is rejected. -/
def readLines : List (List Char) → Option (List AsmLine)
  | [] => some []
  | cs :: rest =>
    match readLine cs, readLines rest with
    | some l, some ls => some (l :: ls)
    | _, _ => none

/-- The transfers a written command program sends (R71: "a command program is a sequence of lines"). -/
def assembleText (utf8 : List Char → List Byte) (lines : List (List Char)) : Option (List Offer) :=
  match readLines lines with
  | some ls => assemble utf8 [] ls
  | none => none

end Sys2Proof.Machine
end

