-- ==== Sys2Proof/Machine/System.lean ====
section
/-! DEFINITION. What the spec says around the block with an OPEN parameter, each parameter an argument (R5): the whole
frame contract over RESIZE (R94), and a command word carried over a byte-wide bus in the order
CMD_BYTE_ORDER (R45). -/

namespace Sys2Proof.Machine

/-- A source image of any resolution that is not empty: W ≥ 1, H ≥ 1, 8-bit channels (R94). Its pixels are listed row
by row. -/
structure SourceImage where
  width : Nat
  height : Nat
  pixels : List Pixel
  width_pos : 1 ≤ width
  height_pos : 1 ≤ height
  size : pixels.length = width * height

/-- A 240×240 frame of 8-bit channels: the output shape of RESIZE (R94). -/
abbrev Frame := { f : List Pixel // f.length = Config.framePixels }

/-- RESIZE (R5, R94): a total, deterministic function on images that are not empty. Nothing else is known of it. -/
abbrev Resize := SourceImage → Frame

/-- frame_encode(img) = serialize(RESIZE(img)) (R94). -/
def frameEncode (resize : Resize) (img : SourceImage) : List Byte :=
  serialize (resize img).val

/-- CMD_BYTE_ORDER (R45): which byte of the command word (0 is bits 7:0) the i-th byte on the bus is. -/
abbrev CmdByteOrder := Fin 4 → Fin 4

/-- Byte `lane` of a command word. -/
def wordLane (w : Word) (lane : Fin 4) : Byte := w.extractLsb' (8 * lane.val) 8

/-- The i-th byte of a command word carried over a byte-wide bus (R45). -/
def busByte (order : CmdByteOrder) (w : Word) (i : Fin 4) : Byte := wordLane w (order i)

/-- The command word put together from the four bytes of the bus (R45). -/
def wordFromBus (order : CmdByteOrder) (bytes : Fin 4 → Byte) : Word :=
  ((bytes 0).setWidth 32 <<< (8 * (order 0).val)) ||| ((bytes 1).setWidth 32 <<< (8 * (order 1).val)) |||
    ((bytes 2).setWidth 32 <<< (8 * (order 2).val)) ||| ((bytes 3).setWidth 32 <<< (8 * (order 3).val))

end Sys2Proof.Machine
end

