-- ==== Sys2Proof/WellFormed.lean ====
section
/-! DEFINITION. Well-formedness. Every value of every command field is legal (R62, R64), and format F has no field
(R63), so each Instr is well formed as it stands; what the spec asks to be checked is the shape of the
payload that comes with a command (R60, R146, R158). -/

namespace Sys2Proof

/-- "Every value of R, G and B is legal" (R62), "every value of N is legal, including 0" (R64). -/
def Instr.wellFormed : Instr → Bool
  | .pack565 _ _ _ => true
  | .fenc => true
  | .tenc _ => true

/-- The payload shape R60 prescribes: PACK565 none, FENC 57,600 pixels, TENC N bytes. -/
def Payload.wellFormed (i : Instr) (p : Payload) : Bool :=
  match i with
  | .pack565 _ _ _ => p.pixels.length == 0 && p.text.length == 0
  | .fenc => p.pixels.length == Config.framePixels && p.text.length == 0
  | .tenc n => p.pixels.length == 0 && p.text.length == n.toNat

end Sys2Proof
end

