-- ==== Sys2Proof/Safety.lean ====
section
/-! DEFINITION. What claims about the machine are stated in: the invariant of R34, the host's duty of R146, the
response of an offer (R9), the end of a run (R159), and the fault record of R26. -/

namespace Sys2Proof.Machine

/-- The invariant of R34, with what R22, R23, R31 and R130 say of the same fields. -/
structure Inv (s : State) : Prop where
  /-- RESP is in its one form. -/
  respWf : s.resp.wf
  /-- Exactly the bytes 0 to RLEN − 1 have a value (R22). -/
  respCovers : ∀ k, (s.resp.read k).isSome = true ↔ k < s.rlen.toNat
  /-- RLEN is 0 or the length of a response (R23). -/
  rlenLegal : s.rlen = 0#17 ∨ s.rlen = 2#17 ∨ s.rlen = 128#17 ∨ s.rlen = 115200#17
  /-- "PHASE = Idle implies POS = RLEN" (R34). -/
  idlePos : s.phase = .idle → s.pos = s.rlen
  /-- "PHASE = Emit implies … POS < RLEN" (R34). -/
  emitPos : s.phase = .emit → s.pos.toNat < s.rlen.toNat
  /-- "STICKY_FAULT = 0 implies LAST_STATUS = 0x00" (R34). -/
  stickyRecords : s.stickyFault = false → s.lastStatus = 0x00#8
  /-- "Codes 0x03 to 0xFF are never produced" (R130). -/
  statusLegal : s.lastStatus = 0x00#8 ∨ s.lastStatus = 0x01#8 ∨ s.lastStatus = 0x02#8
  /-- A latched payload is no state once RESP has been computed from it (R31). -/
  latchesEmpty : s.frameIn = [] ∧ s.textIn = []

/-- The host's duty (R146, R157): every command it has still to get taken comes with exactly the prescribed payload.
A word that faults may come with any (R60: none is taken). -/
def HostObeys (s : State) : Prop :=
  ∀ o ∈ s.offers, ∀ i, decode o.word = .command i → o.payload.wellFormed i = true

/-- The response of a command on its payload (R84, R85, R111): a function of the two alone (R9). -/
def responseOf (i : Instr) (p : Payload) : List Byte :=
  match i with
  | .pack565 r g b => bigEndian (pack565 r g b)
  | .fenc => serialize p.pixels
  | .tenc _ => fixed128 p.text

/-- The response of an offer: none where its word faults (R132). -/
def responseOfOffer (o : Offer) : List Byte :=
  match decode o.word with
  | .command i => responseOf i o.payload
  | .fault _ => []

/-- The length of the response of a command (R23). -/
def responseLength : Instr → Nat
  | .pack565 _ _ _ => 2
  | .fenc => 115200
  | .tenc _ => 128

/-- What accepting a command does to every field but RESP (R84, R85, R111): RLEN, POS, PHASE and LAST_STATUS are
written, the latched payload is gone (R31, log entry 5), and nothing else changes, STICKY_FAULT among it. -/
structure AcceptedFrom (s t : State) (length : Nat) : Prop where
  phase : t.phase = .emit
  rlen : t.rlen.toNat = length
  pos : t.pos.toNat = 0
  lastStatus : t.lastStatus = 0x00#8
  stickyFault : t.stickyFault = s.stickyFault
  latches : t.frameIn = [] ∧ t.textIn = []
  offers : t.offers = s.offers
  schedule : t.schedule = s.schedule
  emitted : t.emitted = s.emitted
  statusReads : t.statusReads = s.statusReads
  draws : t.draws = s.draws

/-- The bytes emitted so far, in order (R159). -/
def State.output (s : State) : List Byte := (s.emitted.map OutByte.byte).reverse

/-- End of a run (R159): every offer has been taken and PHASE = Idle. -/
def State.ended (s : State) : Prop := s.offers = [] ∧ s.phase = .idle

/-- The host moves of a host that offers one command and then takes every byte of its response. -/
def eagerMoves (o : Offer) : List Event :=
  .move .offer :: List.replicate (responseOfOffer o).length (.move .take)

/-- The bytes of a response from position k on, each with the flags it carries on the output port (R43, R86). -/
def flagged (rlen : Nat) : Nat → List Byte → List OutByte
  | _, [] => []
  | k, b :: bs =>
    ⟨b, (rlen == 115200 && (k + 1) % 1024 == 0) || k + 1 == rlen, k + 1 == rlen⟩ :: flagged rlen (k + 1) bs

end Sys2Proof.Machine
end

