-- ==== Sys2Proof/Certificates/Slice0/Obligations.lean ====
section
/-! DEFINITION. The statements about the block, each from the rules of spec/ its docstring names. -/

open Sys2Proof Sys2Proof.Machine

/-! Command words. -/

/-- R66: the decode function on every 32-bit word, in the numbers of the word, with the codes it raises. -/
def Obligations.DecodeFollowsOpcodeMap : Prop :=
  (∀ w : Word,
    (w.toNat % 256 = 0x01 →
      decode w = .command (.pack565 (BitVec.ofNat 8 (w.toNat / 2 ^ 24)) (BitVec.ofNat 8 (w.toNat / 2 ^ 16))
        (BitVec.ofNat 8 (w.toNat / 2 ^ 8)))) ∧
    (w.toNat % 256 = 0x02 →
      decode w = if w.toNat / 256 ≠ 0 then .fault .reservedNonzero else .command .fenc) ∧
    (w.toNat % 256 = 0x03 → decode w = .command (.tenc (BitVec.ofNat 24 (w.toNat / 256)))) ∧
    (w.toNat % 256 = 0x00 ∨ 0x04 ≤ w.toNat % 256 → decode w = .fault .illegalOp)) ∧
  cmdFaultCode .illegalOp = 0x01#8 ∧ cmdFaultCode .reservedNonzero = 0x02#8

/-- R62, R63, R64, R66: decoding the encoding of any command gives it back, with every operand at every value. -/
def Obligations.DecodeOfEncodeIsIdentity : Prop :=
  ∀ i : Instr, decode (encode i) = .command i

/-- R62, R63, R64: a command has one word. -/
def Obligations.EncodeOfDecodeIsIdentity : Prop :=
  ∀ (w : Word) (i : Instr), decode w = .command i → encode i = w

/-- Words of 95_test_vectors.md (P3, P9, T5, X1 to X9; T13 is the word of X8), written out from the formats of R62, R63
and R64. -/
def Obligations.SpecWordsDecodeRight : Prop :=
  decode 0xFF000001#32 = .command (.pack565 255 0 0) ∧
  decode 0x12345601#32 = .command (.pack565 0x12 0x34 0x56) ∧
  decode 0xFFFFFF01#32 = .command (.pack565 255 255 255) ∧
  decode 0x00008103#32 = .command (.tenc 129) ∧
  decode 0xFFFFFF03#32 = .command (.tenc 16777215) ∧
  decode 0x00000002#32 = .command .fenc ∧
  decode 0x00000000#32 = .fault .illegalOp ∧
  decode 0x00000004#32 = .fault .illegalOp ∧
  decode 0x00000005#32 = .fault .illegalOp ∧
  decode 0x123456FF#32 = .fault .illegalOp ∧
  decode 0x00000102#32 = .fault .reservedNonzero ∧
  decode 0x80000002#32 = .fault .reservedNonzero

/-! The pixel pack. -/

/-- R80: the pack is the source's formula evaluated where no bit is lost. -/
def Obligations.PackIsTheSourceFormula : Prop :=
  ∀ r g b : Byte,
    (pack565 r g b).toNat =
      ((r.toNat &&& 0xF8) <<< 8) ||| ((g.toNat &&& 0xFC) <<< 3) ||| (b.toNat >>> 3)

/-- R81: {R[7:3], G[7:2], B[7:3]}; the three terms occupy disjoint bits, so `|` equals `+`. -/
def Obligations.PackedBitLayout : Prop :=
  ∀ r g b : Byte,
    pack565 r g b = r.extractLsb 7 3 ++ g.extractLsb 7 2 ++ b.extractLsb 7 3 ∧
    (pack565 r g b).toNat =
      ((r.toNat &&& 0xF8) <<< 8) + ((g.toNat &&& 0xFC) <<< 3) + (b.toNat >>> 3)

/-- R89: each packed value has exactly 256 preimages (an injective listing of them by 8 bits), so two frames can give
one stream. -/
def Obligations.PackHas256Preimages : Prop :=
  (∀ v : Half, ∃ preimage : BitVec 8 → Pixel, Function.Injective preimage ∧
    ∀ p : Pixel, pack565 p.r p.g p.b = v ↔ ∃ x, preimage x = p) ∧
  (∀ p q : Pixel, p.r.extractLsb 7 3 = q.r.extractLsb 7 3 → p.g.extractLsb 7 2 = q.g.extractLsb 7 2 →
    p.b.extractLsb 7 3 = q.b.extractLsb 7 3 → pack565 p.r p.g p.b = pack565 q.r q.g q.b) ∧
  ∃ f g : List Pixel, f.length = 57600 ∧ g.length = 57600 ∧ f ≠ g ∧ serialize f = serialize g

/-- R91: the error of unpacking a packed pixel, under both unpacks of R90; 7, 3 and 7 are reached. -/
def Obligations.UnpackErrorBound : Prop :=
  (∀ r g b : Byte,
    let p := unpack565 (pack565 r g b)
    let q := unpack565Replicate (pack565 r g b)
    (r.toNat : Int) - p.r.toNat = (r.extractLsb 2 0).toNat ∧
    (g.toNat : Int) - p.g.toNat = (g.extractLsb 1 0).toNat ∧
    (b.toNat : Int) - p.b.toNat = (b.extractLsb 2 0).toNat ∧
    |(r.toNat : Int) - q.r.toNat| ≤ 7 ∧ |(g.toNat : Int) - q.g.toNat| ≤ 3 ∧ |(b.toNat : Int) - q.b.toNat| ≤ 7) ∧
  ∃ r g b : Byte,
    (r.toNat : Int) - (unpack565 (pack565 r g b)).r.toNat = 7 ∧
    (g.toNat : Int) - (unpack565 (pack565 r g b)).g.toNat = 3 ∧
    (b.toNat : Int) - (unpack565 (pack565 r g b)).b.toNat = 7

/-- R92: packing either unpack of a value gives the value back. -/
def Obligations.RepackingIsExact : Prop :=
  ∀ v : Half,
    pack565 (unpack565 v).r (unpack565 v).g (unpack565 v).b = v ∧
    pack565 (unpack565Replicate v).r (unpack565Replicate v).g (unpack565Replicate v).b = v

/-! The frame encoder. -/

/-- R82: M(y, x) = F(y, 239 − x), rows in order; applying the mirror twice gives the frame back. -/
def Obligations.MirrorReversesColumns : Prop :=
  ∀ f : List Pixel, f.length = 57600 →
    (mirror f).length = 57600 ∧
    (∀ y x, y ≤ 239 → x ≤ 239 → (mirror f)[240 * y + x]? = f[240 * y + (239 - x)]?) ∧
    mirror (mirror f) = f

/-- R83: where each output pixel's two bytes stand, and which input pixel and which half each response byte is. -/
def Obligations.SerializationOrder : Prop :=
  ∀ f : List Pixel, f.length = 57600 →
    (serialize f).length = 115200 ∧
    (∀ y x, y ≤ 239 → x ≤ 239 → ∃ p, f[240 * y + (239 - x)]? = some p ∧
      (serialize f)[480 * y + 2 * x]? = some ((pack565 p.r p.g p.b).extractLsb 15 8) ∧
      (serialize f)[480 * y + 2 * x + 1]? = some ((pack565 p.r p.g p.b).extractLsb 7 0)) ∧
    ∀ k, k < 115200 → ∃ p, f[240 * (k / 480) + (239 - (k % 480) / 2)]? = some p ∧
      (serialize f)[k]? = some (if k % 2 = 0 then (pack565 p.r p.g p.b).extractLsb 15 8
        else (pack565 p.r p.g p.b).extractLsb 7 0)

/-- R88: packing every pixel and then mirroring is mirroring and then packing. -/
def Obligations.PackCommutesWithMirror : Prop :=
  ∀ f : List Pixel, f.length = 57600 →
    mirror (f.map fun p => pack565 p.r p.g p.b) = (mirror f).map fun p => pack565 p.r p.g p.b

/-- R46: read from an even offset, high byte first, word p of the stream is the packed value of output pixel p. -/
def Obligations.EvenWordsArePackedPixels : Prop :=
  ∀ f : List Pixel, f.length = 57600 → ∀ p, p < 57600 → ∃ hi lo q,
    (serialize f)[2 * p]? = some hi ∧ (serialize f)[2 * p + 1]? = some lo ∧ (mirror f)[p]? = some q ∧
    (hi ++ lo : Half) = pack565 q.r q.g q.b

/-- R86: 112 bursts of 1024 bytes and one of 512 make up a FENC stream in order; the flag marks each burst's last byte,
and a PACK565 or TENC response is one burst. -/
def Obligations.BurstsPartitionTheStream : Prop :=
  (∀ stream : List Byte, stream.length = 115200 →
    (∀ b, b < 112 → (burst b stream).length = 1024) ∧
    (burst 112 stream).length = 512 ∧
    (List.range 113).flatMap (fun b => burst b stream) = stream) ∧
  (∀ k, k < 115200 → (lastInBurst 115200#17 (BitVec.ofNat 17 k) = true ↔ (k + 1) % 1024 = 0 ∨ k = 115199)) ∧
  (∀ k, k < 2 → (lastInBurst 2#17 (BitVec.ofNat 17 k) = true ↔ k = 1)) ∧
  ∀ k, k < 128 → (lastInBurst 128#17 (BitVec.ofNat 17 k) = true ↔ k = 127)

/-- R94, R87: for every RESIZE and every image, FENC of RESIZE(img) is accepted with exactly frame_encode(img), 115,200
bytes, in RESP (R22; that the model lists no byte from 115,200 up is log entry 7); and offered in Idle and then
taken byte by byte it emits exactly frame_encode(img) (log entry 12). RESIZE is an argument, log entry 10. -/
def Obligations.FrameContractForEveryResize : Prop :=
  ∀ (resize : Resize) (img : SourceImage) (s : State),
    (frameEncode resize img).length = 115200 ∧
    (∃ t, exec .fenc { s with frameIn := (resize img).val, textIn := [] } = .next t ∧
      t.phase = .emit ∧ t.rlen.toNat = 115200 ∧ ∀ k, t.resp.read k = (frameEncode resize img)[k]?) ∧
    ∀ (os : List Offer) (rest : List Event), s.phase = .idle →
      s.offers = { word := 0x00000002#32, payload := { pixels := (resize img).val, text := [] } } :: os →
      s.schedule = .move .offer :: (List.replicate 115200 (.move .take) ++ rest) →
      ∃ t, core.run 115201 s = .next t ∧ t.output = s.output ++ frameEncode resize img ∧ t.phase = .idle ∧
        t.offers = os ∧ t.schedule = rest

/-! The text codec. -/

/-- R110, R117: fixed128 byte by byte, and as padding or as truncation. -/
def Obligations.FixedWidthText : Prop :=
  ∀ text : List Byte,
    (fixed128 text).length = 128 ∧
    (∀ i, i ≤ 127 → (fixed128 text)[i]? = if i < text.length then text[i]? else some 0x00#8) ∧
    (text.length < 128 → fixed128 text = text ++ List.replicate (128 - text.length) 0x00#8) ∧
    (128 ≤ text.length → fixed128 text = text.take 128) ∧
    (fixed128 text).take (min text.length 128) = text.take (min text.length 128)

/-- R116: zero bytes at the end of a text cannot be told from padding. -/
def Obligations.TrailingNullsLookLikePadding : Prop :=
  ∀ (text : List Byte) (n : Nat), fixed128 (text ++ List.replicate n 0x00#8) = fixed128 text

/-- R119, R113: of a text of 128 bytes or more, the bytes from 128 on (and their number) affect no output and no state,
wherever they cut a character. -/
def Obligations.ExcessTextIsDiscarded : Prop :=
  ∀ (n m : BitVec 24) (a b : List Byte) (s : State), s.frameIn = [] → a.length = n.toNat → b.length = m.toNat →
    128 ≤ a.length → 128 ≤ b.length → a.take 128 = b.take 128 →
    ∃ t, exec (.tenc n) { s with textIn := a } = .next t ∧ exec (.tenc m) { s with textIn := b } = .next t

/-! The commands at the command-accept step: each completes, and what it writes and leaves. -/

/-- R84: PACK565 with no payload is accepted; RESP holds the packed value, high byte first, and no other byte has a
value (R22; that the model lists none there is log entry 7). AcceptedFrom says the rest: the latches stay empty (R31, log
entry 5), and every field it does not name as written is as before. -/
def Obligations.Pack565IsAccepted : Prop :=
  ∀ (r g b : Byte) (s : State), s.frameIn = [] → s.textIn = [] →
    ∃ t, exec (.pack565 r g b) s = .next t ∧ AcceptedFrom s t 2 ∧
      ∀ k, t.resp.read k =
        if k = 0 then some ((pack565 r g b).extractLsb 15 8)
        else if k = 1 then some ((pack565 r g b).extractLsb 7 0) else none

/-- R85: FENC with 57,600 pixels is accepted; byte k of RESP is the half k mod 2 of the packed pixel
(k div 480, 239 − (k mod 480) div 2), and no byte from 115,200 up has a value (R22; log entry 7).
AcceptedFrom says the rest: the latched frame is emptied (R31, log entry 5), and every field it does not name as
written is as before. -/
def Obligations.FencIsAccepted : Prop :=
  ∀ s : State, s.frameIn.length = 57600 → s.textIn = [] →
    ∃ t, exec .fenc s = .next t ∧ AcceptedFrom s t 115200 ∧
      (∀ k, k < 115200 → ∃ p, s.frameIn[240 * (k / 480) + (239 - (k % 480) / 2)]? = some p ∧
        t.resp.read k = some (if k % 2 = 0 then (pack565 p.r p.g p.b).extractLsb 15 8
          else (pack565 p.r p.g p.b).extractLsb 7 0)) ∧
      ∀ k, 115200 ≤ k → t.resp.read k = none

/-- R111: TENC with N bytes is accepted, whatever the bytes (R115); RESP holds the text cut or null-padded to 128 bytes,
and no byte from 128 up has a value (R22; log entry 7). AcceptedFrom says the rest: the latched text is emptied (R31,
log entry 5), and every field it does not name as written is as before. -/
def Obligations.TencIsAccepted : Prop :=
  ∀ (n : BitVec 24) (s : State), s.frameIn = [] → s.textIn.length = n.toNat →
    ∃ t, exec (.tenc n) s = .next t ∧ AcceptedFrom s t 128 ∧
      ∀ k, t.resp.read k =
        if k < 128 then (if k < n.toNat then s.textIn[k]? else some 0x00#8) else none

/-- R146, R158 ("if a require fails: no step"): a command runs exactly when its payload has the shape R60 prescribes.
That the stuck case is the fault wrongPayload is the model's choice, log entry 6. -/
def Obligations.PayloadShapeDecides : Prop :=
  ∀ (i : Instr) (p : Payload) (s : State),
    ((∃ t, exec i (latchPayload p s) = .next t) ↔ p.wellFormed i = true) ∧
    (p.wellFormed i = false → exec i (latchPayload p s) = .fault .wrongPayload)

/-- R9, with R84, R85 and R111 for the other fields: what a command leaves in RESP, RLEN, POS, PHASE and LAST_STATUS
depends on its word and payload alone, not on the state it finds. That RESP lists nothing from RLEN up (R22)
is log entry 7. -/
def Obligations.ResponseIsAFunctionOfTheCommand : Prop :=
  ∀ (i : Instr) (p : Payload) (s₁ s₂ : State), p.wellFormed i = true →
    ∃ t₁ t₂, exec i (latchPayload p s₁) = .next t₁ ∧ exec i (latchPayload p s₂) = .next t₂ ∧
      t₁.resp = t₂.resp ∧ t₁.rlen = t₂.rlen ∧ t₁.pos = t₂.pos ∧ t₁.phase = t₂.phase ∧
      t₁.lastStatus = t₂.lastStatus ∧ ∀ k, t₁.resp.read k = (responseOf i p)[k]?

/-! The step relation. -/

/-- R158: an offer in Idle whose word is a command runs that command, with the oldest offer and the event used up and
the payload latched (R54). -/
def Obligations.StepRunsTheDecodedCommand : Prop :=
  ∀ (s : State) (o : Offer) (os : List Offer) (es : List Event) (i : Instr),
    s.phase = .idle → s.schedule = .move .offer :: es → s.offers = o :: os → decode o.word = .command i →
    step s = exec i { s with
      schedule := es, offers := os, frameIn := o.payload.pixels, textIn := o.payload.text }

/-- The placing function: the next step takes the placed word, and a command so placed is accepted. The payload of
zeros is the model's choice, log entry 3. -/
def Obligations.PlacedCommandIsAccepted : Prop :=
  ∀ (s : State) (w : Nat) (i : Instr), w < 2 ^ 32 → decode (BitVec.ofNat 32 w) = .command i →
    step (s.withFetchWord 32 w) =
      exec i (latchPayload (zeroPayload (BitVec.ofNat 32 w)) { s with phase := .idle, pos := s.rlen }) ∧
    ∃ t, step (s.withFetchWord 32 w) = .next t ∧ t.phase = .emit ∧ t.rlen.toNat = responseLength i

/-- R132: a faulting word changes LAST_STATUS and STICKY_FAULT and nothing else of the block; the port is ready for the
next command. That this holds whatever payload stands beside the word is the model's reading, log entry 13. -/
def Obligations.FaultingWordsAreOnlyRecorded : Prop :=
  ∀ (s : State) (o : Offer) (os : List Offer) (es : List Event) (c : CmdFault),
    s.phase = .idle → s.schedule = .move .offer :: es → s.offers = o :: os → decode o.word = .fault c →
    step s = .next { s with
      schedule := es
      offers := os
      lastStatus := if c = .illegalOp then 0x01#8 else 0x02#8
      stickyFault := true }

/-- R154, R158, R145, R155: an offer in Emit is held, a take in Idle and an offer with nothing to offer are no step, and
with no event the block waits; none of them changes the block. That a step without an event answers the
same state is the model's reading, log entry 2. -/
def Obligations.EventsThatAreNoStep : Prop :=
  ∀ (s : State) (es : List Event),
    (s.schedule = .move .offer :: es → s.phase = .emit → step s = .next { s with schedule := es }) ∧
    (s.schedule = .move .take :: es → s.phase = .idle → step s = .next { s with schedule := es }) ∧
    (s.schedule = .move .offer :: es → s.offers = [] → step s = .next { s with schedule := es }) ∧
    (s.schedule = [] → step s = .next s)

/-- R158 (Take), R24, R43: an emit step puts out RESP[POS] with its two flags, advances POS, and leaves Emit after byte
RLEN − 1; nothing else changes. -/
def Obligations.TakeEmitsTheCurrentByte : Prop :=
  ∀ (s : State) (es : List Event), Inv s → s.phase = .emit → s.schedule = .move .take :: es →
    ∃ b t, s.resp.read s.pos.toNat = some b ∧ step s = .next t ∧
      t.emitted =
        { byte := b
          lastInBurst := decide ((s.rlen.toNat = 115200 ∧ (s.pos.toNat + 1) % 1024 = 0) ∨
            s.pos.toNat + 1 = s.rlen.toNat)
          lastInResponse := decide (s.pos.toNat + 1 = s.rlen.toNat) } :: s.emitted ∧
      t.pos.toNat = s.pos.toNat + 1 ∧
      t.phase = (if s.pos.toNat + 1 = s.rlen.toNat then .idle else .emit) ∧
      t = { s with schedule := es, emitted := t.emitted, pos := t.pos, phase := t.phase }

/-- R84, R85, R111 with R43, R87, R112, R155 and R160: from Idle, an offered command with the prescribed payload, then a
take for each byte, puts out exactly its response in order, each byte with its flags, BUSY until the last
byte is out; then the block is Idle with POS = RLEN, LAST_STATUS 0x00 and STICKY_FAULT as before. That no
stall comes between is log entry 12. -/
def Obligations.CommandEmitsItsWholeResponse : Prop :=
  ∀ (s : State) (o : Offer) (os : List Offer) (i : Instr) (rest : List Event),
    s.phase = .idle → s.offers = o :: os → decode o.word = .command i → o.payload.wellFormed i = true →
    s.schedule = .move .offer :: (List.replicate (responseLength i) (.move .take) ++ rest) →
    (responseOf i o.payload).length = responseLength i ∧
    (∀ j, j < responseLength i → ∃ u, core.run (j + 1) s = .next u ∧ u.status.getLsbD 0 = true ∧
      u.pos.toNat = j ∧ u.lastStatus = 0x00#8) ∧
    ∃ t, core.run (responseLength i + 1) s = .next t ∧
      t.emitted = (flagged (responseLength i) 0 (responseOf i o.payload)).reverse ++ s.emitted ∧
      t.phase = .idle ∧ t.rlen.toNat = responseLength i ∧ t.pos.toNat = responseLength i ∧
      t.lastStatus = 0x00#8 ∧ t.stickyFault = s.stickyFault ∧ t.offers = os ∧ t.schedule = rest ∧
      t.statusReads = s.statusReads

/-- R155, R160, R135, R49: whatever mixture of takes, STATUS reads and held offers the host makes while a response is in
flight (and nothing to offer once it has ended), each take puts out the next byte of RESP with its flags and
nothing else does; POS has advanced by the number of takes, and the block is Idle exactly when the last
byte is out. That no stall comes between is log entry 12. -/
def Obligations.InterleavedMovesDoNotChangeTheOutput : Prop :=
  ∀ (s : State) (moves : List HostMove) (rest : List Event), Inv s → s.phase = .emit →
    s.schedule = moves.map Event.move ++ rest →
    s.pos.toNat + moves.count .take ≤ s.rlen.toNat →
    (s.offers = [] ∨ s.pos.toNat + moves.count .take < s.rlen.toNat) →
    ∃ t, core.run moves.length s = .next t ∧
      (∃ out : List OutByte, t.emitted = out.reverse ++ s.emitted ∧ out.length = moves.count .take ∧
        ∀ j, j < out.length → ∃ b, s.resp.read (s.pos.toNat + j) = some b ∧
          out[j]? = some {
            byte := b
            lastInBurst := decide ((s.rlen.toNat = 115200 ∧ (s.pos.toNat + j + 1) % 1024 = 0) ∨
              s.pos.toNat + j + 1 = s.rlen.toNat)
            lastInResponse := decide (s.pos.toNat + j + 1 = s.rlen.toNat) }) ∧
      t.pos.toNat = s.pos.toNat + moves.count .take ∧
      (t.phase = .idle ↔ s.pos.toNat + moves.count .take = s.rlen.toNat) ∧
      t.statusReads.length = s.statusReads.length + moves.count .readStatus ∧
      t.resp = s.resp ∧ t.rlen = s.rlen ∧ t.lastStatus = s.lastStatus ∧ t.stickyFault = s.stickyFault ∧
      t.offers = s.offers ∧ t.schedule = rest

/-- R155, R24, R133: a take in Emit puts out RESP[POS] and moves POS to the next byte, in the same response; no other step
puts a byte out or takes one back, and none moves POS but the accept of a command and reset, which set it
to 0. -/
def Obligations.OutputGrowsOnlyByTakes : Prop :=
  ∀ s t : State, step s = .next t →
    (∀ es, s.schedule = .move .take :: es → s.phase = .emit →
      (∃ b, s.resp.read s.pos.toNat = some b.byte ∧ t.emitted = b :: s.emitted) ∧
      t.pos.toNat = s.pos.toNat + 1 ∧ t.resp = s.resp ∧ t.rlen = s.rlen) ∧
    ((s.phase = .idle ∨ ∀ es, s.schedule ≠ .move .take :: es) →
      t.emitted = s.emitted ∧
      (t.pos = s.pos ∨
        (t.pos = 0#17 ∧ ((∃ ms es, s.schedule = .reset ms :: es) ∨
          ∃ o os es i, s.phase = .idle ∧ s.schedule = .move .offer :: es ∧ s.offers = o :: os ∧
            decode o.word = .command i))))

/-- R52 (1) and (2), R154: commands leave the host's queue one at a time, the oldest first, and only while no response
is in flight. -/
def Obligations.CommandsAreTakenInArrivalOrder : Prop :=
  ∀ s t : State, step s = .next t → t.offers ≠ s.offers →
    s.phase = .idle ∧ ∃ o es, s.schedule = .move .offer :: es ∧ s.offers = o :: t.offers

/-! What writes each state element. -/

/-- R21: PHASE is written by the command-accept step (Idle to Emit), the last emit step (Emit to Idle) and reset (to
Idle) only. -/
def Obligations.OnlyTheseStepsWritePhase : Prop :=
  ∀ s t : State, step s = .next t → t.phase ≠ s.phase →
    (s.phase = .idle ∧ t.phase = .emit ∧ ∃ o os es i, s.schedule = .move .offer :: es ∧ s.offers = o :: os ∧
      decode o.word = .command i) ∨
    (s.phase = .emit ∧ t.phase = .idle ∧ ∃ es, s.schedule = .move .take :: es ∧ s.pos + 1#17 = s.rlen) ∨
    (t.phase = .idle ∧ ∃ ms es, s.schedule = .reset ms :: es)

/-- R23, and R22 of RESP: an accepted command writes its response and the response's length, reset writes RLEN 0 (R33),
and every step that is neither keeps both. That RESP lists nothing from RLEN up is log entry 7. -/
def Obligations.OnlyTheseStepsWriteTheResponse : Prop :=
  ∀ s t : State, step s = .next t →
    (∀ o os es i, s.phase = .idle → s.schedule = .move .offer :: es → s.offers = o :: os →
      decode o.word = .command i →
      (∀ k, t.resp.read k = (responseOf i o.payload)[k]?) ∧
      t.rlen.toNat = (match i with | .pack565 _ _ _ => 2 | .fenc => 115200 | .tenc _ => 128)) ∧
    (∀ ms es, s.schedule = .reset ms :: es → t.rlen = 0#17) ∧
    ((∀ ms es, s.schedule ≠ .reset ms :: es) →
      (∀ o os es i, s.phase = .idle → s.schedule = .move .offer :: es → s.offers = o :: os →
        decode o.word ≠ .command i) →
      t.resp = s.resp ∧ t.rlen = s.rlen)

/-- R24: an accepted command sets POS to 0, an emit step adds 1 to it without wrapping, reset sets it to 0, and every
other step keeps it; POS stays within RLEN, and below it in Emit. -/
def Obligations.PositionAdvancesByOne : Prop :=
  ∀ s t : State, Inv s → step s = .next t →
    t.pos.toNat ≤ t.rlen.toNat ∧ (t.phase = .emit → t.pos.toNat < t.rlen.toNat) ∧
    ((∃ o os es i, s.phase = .idle ∧ s.schedule = .move .offer :: es ∧ s.offers = o :: os ∧
        decode o.word = .command i ∧ t.pos = 0#17) ∨
      (∃ es, s.phase = .emit ∧ s.schedule = .move .take :: es ∧ t.pos.toNat = s.pos.toNat + 1) ∨
      (∃ ms es, s.schedule = .reset ms :: es ∧ t.pos = 0#17) ∨
      t.pos = s.pos)

/-- R25, with the codes of R130: a command taken on the port writes LAST_STATUS with its outcome, reset writes 0x00, and
every other step keeps it. -/
def Obligations.LastStatusIsTheOutcome : Prop :=
  ∀ s t : State, step s = .next t →
    (∀ o os es, s.phase = .idle → s.schedule = .move .offer :: es → s.offers = o :: os →
      t.lastStatus = (match decode o.word with
        | .command _ => 0x00#8 | .fault .illegalOp => 0x01#8 | .fault .reservedNonzero => 0x02#8)) ∧
    (∀ ms es, s.schedule = .reset ms :: es → t.lastStatus = 0x00#8) ∧
    ((∀ ms es, s.schedule ≠ .reset ms :: es) →
      (s.phase = .emit ∨ s.offers = [] ∨ ∀ es, s.schedule ≠ .move .offer :: es) → t.lastStatus = s.lastStatus)

/-- R26: a faulting command sets STICKY_FAULT, only reset clears it, and nothing else writes it. -/
def Obligations.StickyFaultIsClearedOnlyByReset : Prop :=
  ∀ s t : State, step s = .next t →
    (∀ o os es c, s.phase = .idle → s.schedule = .move .offer :: es → s.offers = o :: os →
      decode o.word = .fault c → t.stickyFault = true) ∧
    (∀ ms es, s.schedule = .reset ms :: es → t.stickyFault = false) ∧
    (s.stickyFault = true → t.stickyFault = false → ∃ ms es, s.schedule = .reset ms :: es) ∧
    (s.stickyFault = false → t.stickyFault = true → ∃ o os es c, s.phase = .idle ∧
      s.schedule = .move .offer :: es ∧ s.offers = o :: os ∧ decode o.word = .fault c)

/-! STATUS and reset. -/

/-- R27: the layout of STATUS, bit by bit; reading it returns it and changes nothing else. -/
def Obligations.StatusLayout : Prop :=
  ∀ s : State,
    (s.status.getLsbD 0 = true ↔ s.phase = .emit) ∧
    s.status.getLsbD 1 = s.stickyFault ∧
    s.status.extractLsb 7 2 = 0#6 ∧
    s.status.extractLsb 15 8 = s.lastStatus ∧
    State.reset.status = 0x0000#16 ∧
    ∀ es, s.schedule = .move .readStatus :: es →
      step s = .next { s with schedule := es, statusReads := s.status :: s.statusReads }

/-- R33: the state after reset. (RESP is unspecified there, and nothing is said of it.) -/
def Obligations.ResetValues : Prop :=
  State.reset.phase = .idle ∧ State.reset.rlen = 0#17 ∧ State.reset.pos = 0#17 ∧ State.reset.lastStatus = 0x00#8 ∧
    State.reset.stickyFault = false ∧ State.reset.status = 0x0000#16

/-- R150, R152: a reset in any state sets the elements of the block to their reset values; an offer of the same step is
not taken, a byte of the same step is not emitted, and each STATUS read of the same step returns the
value before the reset or 0x0000. -/
def Obligations.ResetWinsTheStep : Prop :=
  ∀ (s : State) (ms : List HostMove) (es : List Event), s.schedule = .reset ms :: es →
    ∃ t reads, step s = .next t ∧
      t.phase = .idle ∧ t.rlen = 0#17 ∧ t.pos = 0#17 ∧ t.lastStatus = 0x00#8 ∧ t.stickyFault = false ∧
      t.offers = s.offers ∧ t.emitted = s.emitted ∧ t.schedule = es ∧
      t.statusReads = reads ++ s.statusReads ∧ reads.length = ms.count .readStatus ∧
      ∀ v ∈ reads, v = s.status ∨ v = 0x0000#16

/-- R151: after a reset in mid-response, whatever the host does next (takes, STATUS reads, more resets, offers), nothing
is emitted as long as every word it offers faults (R132), so that no new command is accepted; what was
emitted before stays emitted. Offers with nothing left to offer are no step. -/
def Obligations.ResetAbandonsTheResponse : Prop :=
  ∀ (s : State) (ms : List HostMove) (events rest : List Event),
    s.schedule = .reset ms :: (events ++ rest) →
    (∀ o ∈ s.offers.take (events.count (.move .offer)), ∃ c, decode o.word = .fault c) →
    ∃ t, core.run (events.length + 1) s = .next t ∧ t.emitted = s.emitted ∧ t.phase = .idle ∧
      t.rlen = 0#17 ∧ t.pos = 0#17 ∧ t.offers = s.offers.drop (events.count (.move .offer)) ∧ t.schedule = rest

/-! Invariants and whole runs. -/

/-- R33, R34: the invariant holds at reset. That RESP has no value there is the model's choice, log entry 7, and so is that
FRAME_IN and TEXT_IN are empty there (R31 makes them no state; log entry 5). -/
def Obligations.InvariantAtReset : Prop := Inv State.reset

/-- R34, R22, R23, R31, R130: every step keeps the invariant. Its clauses on RESP without a value from RLEN up (log entry 7)
and on empty latches between steps (log entry 5) are the model's form of R22 and R31. -/
def Obligations.EveryStepKeepsTheInvariant : Prop :=
  ∀ s t : State, Inv s → step s = .next t → Inv t

/-- R34: in every state a host can reach from reset, whatever it offers and in whatever order its moves come. -/
def Obligations.ReachableStatesSatisfyR34 : Prop :=
  ∀ (offers : List Offer) (schedule : List Event) (n : Nat) (t : State),
    core.run n { State.reset with offers := offers, schedule := schedule } = .next t →
    (t.phase = .idle → t.pos = t.rlen) ∧
    (t.phase = .emit → (t.rlen.toNat = 2 ∨ t.rlen.toNat = 128 ∨ t.rlen.toNat = 115200) ∧
      t.pos.toNat < t.rlen.toNat) ∧
    (t.stickyFault = false → t.lastStatus = 0x00#8)

/-- R133, R134, R137, R157: under the invariant, a host that sends exactly the prescribed payloads is never stopped,
whatever its data and its moves. Past the end of the schedule a step answers the same state, log entry 2; the
payload beside a faulting word is free, log entry 13; no stall in a transfer or a response, log entry 12. -/
def Obligations.ObedientHostIsNeverStopped : Prop :=
  ∀ (s : State) (n : Nat), Inv s → HostObeys s → ∃ t, core.run n s = .next t ∧ Inv t ∧ HostObeys t

/-- R52, R159: a host that offers its commands in order and takes every byte gets, in order and with nothing between,
the response of each command; a faulting word adds nothing (R133), whatever payload stands
beside it (log entry 13). The run has then ended. That no stall comes between is log entry 12. -/
def Obligations.ProgramOutputIsTheResponsesInOrder : Prop :=
  ∀ s : State, Inv s → s.phase = .idle → HostObeys s → s.schedule = s.offers.flatMap eagerMoves →
    ∃ t, core.run s.schedule.length s = .next t ∧ t.ended ∧
      t.output = s.output ++ s.offers.flatMap responseOfOffer

/-! The assembler and the byte-wide bus. -/

/-- R71, R72: the words and payloads of the command lines and of `.word`; `tstr` is `tenc` of the text's UTF-8 bytes; and
the lines whose numbers are out of range are rejected. -/
def Obligations.AssemblerForms : Prop :=
  ∀ (utf8 : List Char → List Byte) (frames : List (List Char × List Pixel)),
    (∀ r g b, r ≤ 255 → g ≤ 255 → b ≤ 255 → ∃ o, asmOffer utf8 frames (.pack565 r g b) = some o ∧
      o.word.toNat = r * 2 ^ 24 + g * 2 ^ 16 + b * 2 ^ 8 + 0x01 ∧ o.payload = Payload.empty) ∧
    (∀ r g b, 255 < r ∨ 255 < g ∨ 255 < b → asmOffer utf8 frames (.pack565 r g b) = none) ∧
    (∀ bytes : List Byte, bytes.length ≤ 16777215 →
      ∃ o, asmOffer utf8 frames (.tenc (bytes.map BitVec.toNat)) = some o ∧
        o.word.toNat = bytes.length * 2 ^ 8 + 0x03 ∧ o.payload = { pixels := [], text := bytes }) ∧
    (∀ ns : List Nat, 16777215 < ns.length → asmOffer utf8 frames (.tenc ns) = none) ∧
    (∀ text, asmOffer utf8 frames (.tstr text) = asmOffer utf8 frames (.tenc ((utf8 text).map BitVec.toNat))) ∧
    (∀ text, (utf8 text).length ≤ 16777215 →
      ∃ o, asmOffer utf8 frames (.tstr text) = some o ∧
        o.word.toNat = (utf8 text).length * 2 ^ 8 + 0x03 ∧ o.payload = { pixels := [], text := utf8 text }) ∧
    (∀ name f, asmLookup name frames = some f →
      asmOffer utf8 frames (.fenc name) = some { word := 0x00000002#32, payload := { pixels := f, text := [] } }) ∧
    ∀ w : Word, asmOffer utf8 frames (.word w.toNat) = some { word := w, payload := Payload.empty }

/-- R71: a `.frame` directive gives the 57,600 pixels (R(y,x), G(y,x), B(y,x)) in order p = 240·y + x, which a `fenc` of its
name then sends; it is rejected if a channel value is above 255. The grammar of the formulas is the model's,
log entry 14. -/
def Obligations.FrameDirectiveListsItsPixels : Prop :=
  (∀ (r g b : AsmExpr) (f : List Pixel), asmFrame r g b = some f →
    f.length = 57600 ∧
    (∀ y x, y ≤ 239 → x ≤ 239 → ∃ p, f[240 * y + x]? = some p ∧ r.eval y x = some p.r.toNat ∧
      g.eval y x = some p.g.toNat ∧ b.eval y x = some p.b.toNat) ∧
    ∀ utf8 frames name lines, assemble utf8 frames (.frame name r g b :: .fenc name :: lines) =
      (assemble utf8 ((name, f) :: frames) lines).map
        (fun os => { word := 0x00000002#32, payload := { pixels := f, text := [] } } :: os)) ∧
  (∀ (r g b : AsmExpr), (∀ y x, y ≤ 239 → x ≤ 239 → ∃ u v w, r.eval y x = some u ∧ g.eval y x = some v ∧
      b.eval y x = some w ∧ u ≤ 255 ∧ v ≤ 255 ∧ w ≤ 255) → ∃ f, asmFrame r g b = some f) ∧
  ∀ (r g b : AsmExpr) (y x n : Nat), y ≤ 239 → x ≤ 239 → 255 < n →
    r.eval y x = some n ∨ g.eval y x = some n ∨ b.eval y x = some n → asmFrame r g b = none

/-- R71: "An assembler must reject the following: a channel value above 255; a `tenc` list of more than 16,777,215 bytes;
and any other mnemonic." A program with one such line is rejected whole, wherever the line stands. (A channel of a
`.frame` directive: FrameDirectiveListsItsPixels.) How a line is cut into tokens is the model's, log
entry 14. -/
def Obligations.AssemblerRejects : Prop :=
  (∀ (cs cmd : List Char) (rest : List AsmToken), lexLine .between cs = some (.name cmd :: rest) →
    cmd ∉ [['p', 'a', 'c', 'k', '5', '6', '5'], ['f', 'e', 'n', 'c'], ['t', 'e', 'n', 'c'], ['t', 's', 't', 'r'],
      ['.', 'w', 'o', 'r', 'd'], ['.', 'f', 'r', 'a', 'm', 'e']] →
    readLine cs = none) ∧
  (∀ utf8 lines cs, cs ∈ lines → readLine cs = none → assembleText utf8 lines = none) ∧
  (∀ utf8 frames lines r g b, AsmLine.pack565 r g b ∈ lines → 255 < r ∨ 255 < g ∨ 255 < b →
    assemble utf8 frames lines = none) ∧
  (∀ utf8 frames lines ns, AsmLine.tenc ns ∈ lines → 16777215 < ns.length → assemble utf8 frames lines = none) ∧
  ∀ utf8 frames lines name r g b, AsmLine.frame name r g b ∈ lines → asmFrame r g b = none →
    assemble utf8 frames lines = none

/-- R71, R72, R146: what a program without `.word` lines sends is a legal command with exactly the prescribed payload,
line by line. -/
def Obligations.AssembledOffersObeyTheHostDuty : Prop :=
  ∀ (utf8 : List Char → List Byte) (lines : List AsmLine) (offers : List Offer),
    (∀ w, AsmLine.word w ∉ lines) → assemble utf8 [] lines = some offers →
    ∀ o ∈ offers, ∃ i, decode o.word = .command i ∧ o.payload.wellFormed i = true

/-- R45: whatever the OPEN parameter CMD_BYTE_ORDER, if it carries each byte of the word once, the word put together
from the bus is the word that was sent. -/
def Obligations.BusOrderKeepsTheWord : Prop :=
  ∀ order : CmdByteOrder, Function.Bijective order → ∀ w : Word, wordFromBus order (busByte order w) = w
end

