-- ==== Sys2Proof/Laws/Encode.lean ====
section
/-! SUPPORT. The numbers of the encoder's words, from which the fields of a word are read off by arithmetic. -/

namespace Sys2Proof

/-- Concatenation {x, y} (R6) in numbers. -/
theorem toNat_append_eq {n m : Nat} (x : BitVec n) (y : BitVec m) :
    (x ++ y).toNat = x.toNat * 2 ^ m + y.toNat := by
  rw [BitVec.toNat_append, ← Nat.shiftLeft_add_eq_or_of_lt y.isLt, Nat.shiftLeft_eq]

/-- Format P (R62) in numbers. -/
theorem toNat_encode_pack565 (r g b : Byte) :
    (encode (.pack565 r g b)).toNat = r.toNat * 2 ^ 24 + g.toNat * 2 ^ 16 + b.toNat * 2 ^ 8 + 0x01 := by
  refine (toNat_append_eq (r ++ g ++ b) 0x01#8).trans ?_
  rw [toNat_append_eq, toNat_append_eq]
  simp only [BitVec.toNat_ofNat]
  omega

/-- Format T (R64) in numbers. -/
theorem toNat_encode_tenc (n : BitVec 24) : (encode (.tenc n)).toNat = n.toNat * 2 ^ 8 + 0x03 :=
  (toNat_append_eq n 0x03#8).trans (by simp only [BitVec.toNat_ofNat])

/-- A field of a word as a number. -/
theorem extractLsb'_eq_ofNat (w : Word) (lo n : Nat) : w.extractLsb' lo n = BitVec.ofNat n (w.toNat / 2 ^ lo) := by
  rw [← BitVec.toNat_inj]
  simp [BitVec.extractLsb'_toNat, Nat.shiftRight_eq_div_pow]

/-- OP as a number. -/
theorem opField_eq_iff (w : Word) (n : Nat) (h : n < 256) :
    opField w = BitVec.ofNat 8 n ↔ w.toNat % 256 = n := by
  rw [← BitVec.toNat_inj]
  simp [opField, BitVec.extractLsb'_toNat, Nat.mod_eq_of_lt h]

end Sys2Proof
end

