-- ==== Sys2Proof/Laws/Memory.lean ====
section
/-! SUPPORT. RESP (R22): what a fresh response reads as, and that every RESP the machine writes is in its one form. -/

namespace Sys2Proof.Machine

/-- The empty RESP of reset is in form. -/
theorem Memory.wf_nil : Memory.wf [] := ⟨List.Pairwise.nil, by simp⟩

theorem Memory.offset_ge_of_mem_ofBytes (bs : List Byte) :
    ∀ (start : Nat) (c : Host.Cell), c ∈ Memory.ofBytes start bs → start ≤ c.1 ∧ c.1 < start + bs.length := by
  induction bs with
  | nil => intro start c h; simp [Memory.ofBytes] at h
  | cons b bs ih =>
    intro start c h
    rcases List.mem_cons.mp h with rfl | h
    · simp
    · have := ih (start + 1) c h
      simp only [List.length_cons]
      omega

/-- A response that fits in RESP is written in the one form. -/
theorem Memory.wf_ofBytes (bs : List Byte) (start : Nat) (h : start + bs.length ≤ Config.frameBytes) :
    Memory.wf (Memory.ofBytes start bs) := by
  refine ⟨?_, fun c hc => by have := Memory.offset_ge_of_mem_ofBytes bs start c hc; omega⟩
  clear h
  induction bs generalizing start with
  | nil => simp [Memory.ofBytes]
  | cons b bs ih =>
    refine List.pairwise_cons.mpr ⟨fun c hc => ?_, ih (start + 1)⟩
    have := Memory.offset_ge_of_mem_ofBytes bs (start + 1) c hc
    simp only
    omega

theorem Memory.read_ofBytes_ge (bs : List Byte) (start k : Nat) (h : start ≤ k) :
    (Memory.ofBytes start bs).read k = bs[k - start]? := by
  induction bs generalizing start with
  | nil => simp [Memory.ofBytes, Memory.read]
  | cons b bs ih =>
    rcases Nat.eq_or_lt_of_le h with rfl | h
    · simp [Memory.ofBytes, Memory.read]
    · have hk : k - start = (k - (start + 1)) + 1 := by omega
      simp only [Memory.ofBytes, Memory.read, if_neg (Nat.ne_of_lt h), hk, List.getElem?_cons_succ]
      exact ih (start + 1) h

/-- RESP after an accept, read at any offset: the response's byte there, and no value from its length up (R22). -/
@[simp] theorem Memory.read_ofBytes (bs : List Byte) (k : Nat) : (Memory.ofBytes 0 bs).read k = bs[k]? := by
  simpa using Memory.read_ofBytes_ge bs 0 k (Nat.zero_le k)

@[simp] theorem Memory.read_nil (k : Nat) : Memory.read [] k = none := rfl

end Sys2Proof.Machine
end

