-- ==== Sys2Proof/Laws/State.lean ====
section
/-! SUPPORT. Each field of State after each update of the shared operations, by definition. -/

namespace Sys2Proof.Machine

@[simp] theorem beginResponse_phase (bs : List Byte) (n : Position) (s : State) :
    (beginResponse bs n s).phase = .emit := rfl
@[simp] theorem beginResponse_resp (bs : List Byte) (n : Position) (s : State) :
    (beginResponse bs n s).resp = Memory.ofBytes 0 bs := rfl
@[simp] theorem beginResponse_rlen (bs : List Byte) (n : Position) (s : State) :
    (beginResponse bs n s).rlen = n := rfl
@[simp] theorem beginResponse_pos (bs : List Byte) (n : Position) (s : State) :
    (beginResponse bs n s).pos = 0#17 := rfl
@[simp] theorem beginResponse_lastStatus (bs : List Byte) (n : Position) (s : State) :
    (beginResponse bs n s).lastStatus = 0x00#8 := rfl
@[simp] theorem beginResponse_stickyFault (bs : List Byte) (n : Position) (s : State) :
    (beginResponse bs n s).stickyFault = s.stickyFault := rfl
@[simp] theorem beginResponse_frameIn (bs : List Byte) (n : Position) (s : State) :
    (beginResponse bs n s).frameIn = [] := rfl
@[simp] theorem beginResponse_textIn (bs : List Byte) (n : Position) (s : State) :
    (beginResponse bs n s).textIn = [] := rfl
@[simp] theorem beginResponse_offers (bs : List Byte) (n : Position) (s : State) :
    (beginResponse bs n s).offers = s.offers := rfl
@[simp] theorem beginResponse_schedule (bs : List Byte) (n : Position) (s : State) :
    (beginResponse bs n s).schedule = s.schedule := rfl
@[simp] theorem beginResponse_emitted (bs : List Byte) (n : Position) (s : State) :
    (beginResponse bs n s).emitted = s.emitted := rfl
@[simp] theorem beginResponse_statusReads (bs : List Byte) (n : Position) (s : State) :
    (beginResponse bs n s).statusReads = s.statusReads := rfl
@[simp] theorem beginResponse_draws (bs : List Byte) (n : Position) (s : State) :
    (beginResponse bs n s).draws = s.draws := rfl

@[simp] theorem recordFault_phase (c : CmdFault) (s : State) : (recordFault c s).phase = s.phase := rfl
@[simp] theorem recordFault_resp (c : CmdFault) (s : State) : (recordFault c s).resp = s.resp := rfl
@[simp] theorem recordFault_rlen (c : CmdFault) (s : State) : (recordFault c s).rlen = s.rlen := rfl
@[simp] theorem recordFault_pos (c : CmdFault) (s : State) : (recordFault c s).pos = s.pos := rfl
@[simp] theorem recordFault_lastStatus (c : CmdFault) (s : State) :
    (recordFault c s).lastStatus = cmdFaultCode c := rfl
@[simp] theorem recordFault_stickyFault (c : CmdFault) (s : State) : (recordFault c s).stickyFault = true := rfl
@[simp] theorem recordFault_frameIn (c : CmdFault) (s : State) : (recordFault c s).frameIn = s.frameIn := rfl
@[simp] theorem recordFault_textIn (c : CmdFault) (s : State) : (recordFault c s).textIn = s.textIn := rfl
@[simp] theorem recordFault_offers (c : CmdFault) (s : State) : (recordFault c s).offers = s.offers := rfl
@[simp] theorem recordFault_schedule (c : CmdFault) (s : State) : (recordFault c s).schedule = s.schedule := rfl
@[simp] theorem recordFault_emitted (c : CmdFault) (s : State) : (recordFault c s).emitted = s.emitted := rfl
@[simp] theorem recordFault_statusReads (c : CmdFault) (s : State) :
    (recordFault c s).statusReads = s.statusReads := rfl
@[simp] theorem recordFault_draws (c : CmdFault) (s : State) : (recordFault c s).draws = s.draws := rfl

@[simp] theorem emitByte_phase (b : Byte) (s : State) :
    (emitByte b s).phase = if s.pos + 1#17 = s.rlen then .idle else s.phase := rfl
@[simp] theorem emitByte_resp (b : Byte) (s : State) : (emitByte b s).resp = s.resp := rfl
@[simp] theorem emitByte_rlen (b : Byte) (s : State) : (emitByte b s).rlen = s.rlen := rfl
@[simp] theorem emitByte_pos (b : Byte) (s : State) : (emitByte b s).pos = s.pos + 1#17 := rfl
@[simp] theorem emitByte_lastStatus (b : Byte) (s : State) : (emitByte b s).lastStatus = s.lastStatus := rfl
@[simp] theorem emitByte_stickyFault (b : Byte) (s : State) : (emitByte b s).stickyFault = s.stickyFault := rfl
@[simp] theorem emitByte_frameIn (b : Byte) (s : State) : (emitByte b s).frameIn = s.frameIn := rfl
@[simp] theorem emitByte_textIn (b : Byte) (s : State) : (emitByte b s).textIn = s.textIn := rfl
@[simp] theorem emitByte_offers (b : Byte) (s : State) : (emitByte b s).offers = s.offers := rfl
@[simp] theorem emitByte_schedule (b : Byte) (s : State) : (emitByte b s).schedule = s.schedule := rfl
@[simp] theorem emitByte_emitted (b : Byte) (s : State) :
    (emitByte b s).emitted = ⟨b, lastInBurst s.rlen s.pos, lastInResponse s.rlen s.pos⟩ :: s.emitted := rfl
@[simp] theorem emitByte_statusReads (b : Byte) (s : State) : (emitByte b s).statusReads = s.statusReads := rfl
@[simp] theorem emitByte_draws (b : Byte) (s : State) : (emitByte b s).draws = s.draws := rfl

@[simp] theorem resetBlock_phase (s : State) : (resetBlock s).phase = .idle := rfl
@[simp] theorem resetBlock_resp (s : State) : (resetBlock s).resp = [] := rfl
@[simp] theorem resetBlock_rlen (s : State) : (resetBlock s).rlen = 0#17 := rfl
@[simp] theorem resetBlock_pos (s : State) : (resetBlock s).pos = 0#17 := rfl
@[simp] theorem resetBlock_lastStatus (s : State) : (resetBlock s).lastStatus = 0x00#8 := rfl
@[simp] theorem resetBlock_stickyFault (s : State) : (resetBlock s).stickyFault = false := rfl
@[simp] theorem resetBlock_frameIn (s : State) : (resetBlock s).frameIn = [] := rfl
@[simp] theorem resetBlock_textIn (s : State) : (resetBlock s).textIn = [] := rfl
@[simp] theorem resetBlock_offers (s : State) : (resetBlock s).offers = s.offers := rfl
@[simp] theorem resetBlock_schedule (s : State) : (resetBlock s).schedule = s.schedule := rfl
@[simp] theorem resetBlock_emitted (s : State) : (resetBlock s).emitted = s.emitted := rfl
@[simp] theorem resetBlock_statusReads (s : State) : (resetBlock s).statusReads = s.statusReads := rfl
@[simp] theorem resetBlock_draws (s : State) : (resetBlock s).draws = s.draws := rfl

@[simp] theorem latchPayload_phase (p : Payload) (s : State) : (latchPayload p s).phase = s.phase := rfl
@[simp] theorem latchPayload_resp (p : Payload) (s : State) : (latchPayload p s).resp = s.resp := rfl
@[simp] theorem latchPayload_rlen (p : Payload) (s : State) : (latchPayload p s).rlen = s.rlen := rfl
@[simp] theorem latchPayload_pos (p : Payload) (s : State) : (latchPayload p s).pos = s.pos := rfl
@[simp] theorem latchPayload_lastStatus (p : Payload) (s : State) :
    (latchPayload p s).lastStatus = s.lastStatus := rfl
@[simp] theorem latchPayload_stickyFault (p : Payload) (s : State) :
    (latchPayload p s).stickyFault = s.stickyFault := rfl
@[simp] theorem latchPayload_frameIn (p : Payload) (s : State) : (latchPayload p s).frameIn = p.pixels := rfl
@[simp] theorem latchPayload_textIn (p : Payload) (s : State) : (latchPayload p s).textIn = p.text := rfl
@[simp] theorem latchPayload_offers (p : Payload) (s : State) : (latchPayload p s).offers = s.offers := rfl
@[simp] theorem latchPayload_schedule (p : Payload) (s : State) : (latchPayload p s).schedule = s.schedule := rfl
@[simp] theorem latchPayload_emitted (p : Payload) (s : State) : (latchPayload p s).emitted = s.emitted := rfl
@[simp] theorem latchPayload_statusReads (p : Payload) (s : State) :
    (latchPayload p s).statusReads = s.statusReads := rfl
@[simp] theorem latchPayload_draws (p : Payload) (s : State) : (latchPayload p s).draws = s.draws := rfl

@[simp] theorem hostReadStatus_phase (s : State) : (hostReadStatus s).phase = s.phase := rfl
@[simp] theorem hostReadStatus_resp (s : State) : (hostReadStatus s).resp = s.resp := rfl
@[simp] theorem hostReadStatus_rlen (s : State) : (hostReadStatus s).rlen = s.rlen := rfl
@[simp] theorem hostReadStatus_pos (s : State) : (hostReadStatus s).pos = s.pos := rfl
@[simp] theorem hostReadStatus_lastStatus (s : State) : (hostReadStatus s).lastStatus = s.lastStatus := rfl
@[simp] theorem hostReadStatus_stickyFault (s : State) : (hostReadStatus s).stickyFault = s.stickyFault := rfl
@[simp] theorem hostReadStatus_frameIn (s : State) : (hostReadStatus s).frameIn = s.frameIn := rfl
@[simp] theorem hostReadStatus_textIn (s : State) : (hostReadStatus s).textIn = s.textIn := rfl
@[simp] theorem hostReadStatus_offers (s : State) : (hostReadStatus s).offers = s.offers := rfl
@[simp] theorem hostReadStatus_schedule (s : State) : (hostReadStatus s).schedule = s.schedule := rfl
@[simp] theorem hostReadStatus_emitted (s : State) : (hostReadStatus s).emitted = s.emitted := rfl
@[simp] theorem hostReadStatus_statusReads (s : State) :
    (hostReadStatus s).statusReads = s.status :: s.statusReads := rfl
@[simp] theorem hostReadStatus_draws (s : State) : (hostReadStatus s).draws = s.draws := rfl

@[simp] theorem placeCommand_phase (w : Word) (s : State) : (placeCommand w s).phase = .idle := rfl
@[simp] theorem placeCommand_resp (w : Word) (s : State) : (placeCommand w s).resp = s.resp := rfl
@[simp] theorem placeCommand_rlen (w : Word) (s : State) : (placeCommand w s).rlen = s.rlen := rfl
@[simp] theorem placeCommand_pos (w : Word) (s : State) : (placeCommand w s).pos = s.rlen := rfl
@[simp] theorem placeCommand_lastStatus (w : Word) (s : State) : (placeCommand w s).lastStatus = s.lastStatus := rfl
@[simp] theorem placeCommand_stickyFault (w : Word) (s : State) :
    (placeCommand w s).stickyFault = s.stickyFault := rfl
@[simp] theorem placeCommand_frameIn (w : Word) (s : State) : (placeCommand w s).frameIn = s.frameIn := rfl
@[simp] theorem placeCommand_textIn (w : Word) (s : State) : (placeCommand w s).textIn = s.textIn := rfl
@[simp] theorem placeCommand_offers (w : Word) (s : State) :
    (placeCommand w s).offers = { word := w, payload := zeroPayload w } :: s.offers := rfl
@[simp] theorem placeCommand_schedule (w : Word) (s : State) :
    (placeCommand w s).schedule = .move .offer :: s.schedule := rfl
@[simp] theorem placeCommand_emitted (w : Word) (s : State) : (placeCommand w s).emitted = s.emitted := rfl
@[simp] theorem placeCommand_statusReads (w : Word) (s : State) :
    (placeCommand w s).statusReads = s.statusReads := rfl
@[simp] theorem placeCommand_draws (w : Word) (s : State) : (placeCommand w s).draws = s.draws := rfl

@[simp] theorem reset_phase : State.reset.phase = .idle := rfl
@[simp] theorem reset_resp : State.reset.resp = [] := rfl
@[simp] theorem reset_rlen : State.reset.rlen = 0#17 := rfl
@[simp] theorem reset_pos : State.reset.pos = 0#17 := rfl
@[simp] theorem reset_lastStatus : State.reset.lastStatus = 0x00#8 := rfl
@[simp] theorem reset_stickyFault : State.reset.stickyFault = false := rfl
@[simp] theorem reset_frameIn : State.reset.frameIn = [] := rfl
@[simp] theorem reset_textIn : State.reset.textIn = [] := rfl
@[simp] theorem reset_offers : State.reset.offers = [] := rfl
@[simp] theorem reset_schedule : State.reset.schedule = [] := rfl
@[simp] theorem reset_emitted : State.reset.emitted = [] := rfl
@[simp] theorem reset_statusReads : State.reset.statusReads = [] := rfl
@[simp] theorem reset_draws : State.reset.draws = 0 := rfl

end Sys2Proof.Machine
end

