-- ==== Sys2Proof/Laws/Ops.lean ====
section
/-! SUPPORT. One lemma per shared operation that says all it can do, for the proofs to cite. -/

namespace Sys2Proof.Machine

theorem hasLength_iff {α : Type} (n : Nat) (as : List α) : hasLength n as = true ↔ as.length = n := by
  induction n generalizing as with
  | zero => cases as <;> simp [hasLength]
  | succ n ih => cases as <;> simp [hasLength, ih]

/-- The check that WellFormed.lean states and the one the meanings make agree, command by command. -/
theorem payloadEmpty_latch (p : Payload) (s : State) (r g b : Byte) :
    payloadEmpty (latchPayload p s) = p.wellFormed (.pack565 r g b) := by
  rw [Bool.eq_iff_iff]
  simp [payloadEmpty, Payload.wellFormed, hasLength_iff]

theorem payloadIsFrame_latch (p : Payload) (s : State) :
    payloadIsFrame (latchPayload p s) = p.wellFormed .fenc := by
  rw [Bool.eq_iff_iff]
  simp [payloadIsFrame, Payload.wellFormed, hasLength_iff]

theorem payloadIsText_latch (p : Payload) (s : State) (n : BitVec 24) :
    payloadIsText n (latchPayload p s) = p.wellFormed (.tenc n) := by
  rw [Bool.eq_iff_iff]
  simp [payloadIsText, Payload.wellFormed, hasLength_iff]

@[simp] theorem length_bigEndian (v : Half) : (bigEndian v).length = 2 := rfl

theorem length_packAll (ps : List Pixel) : (packAll ps).length = 2 * ps.length := by
  induction ps with
  | nil => rfl
  | cons p ps ih => simp only [packAll, pixelBytes, List.length_append, length_bigEndian, ih, List.length_cons]; omega

theorem length_mirrorRows {α : Type} (rows : Nat) (f : List α) (h : 240 * rows ≤ f.length) :
    (mirrorRows rows f).length = 240 * rows := by
  induction rows generalizing f with
  | zero => rfl
  | succ rows ih =>
    simp only [mirrorRows, List.length_append, List.length_reverse, List.length_take, Config.frameW]
    rw [ih _ (by simp only [List.length_drop]; omega)]
    omega

theorem length_serialize (f : List Pixel) (h : f.length = Config.framePixels) :
    (serialize f).length = Config.frameBytes := by
  rw [serialize, length_packAll, mirror, length_mirrorRows _ _ (by simp [h, Config.frameH, Config.framePixels])]
  rfl

theorem length_padTo (width : Nat) (text : List Byte) : (padTo width text).length = width := by
  induction width generalizing text with
  | zero => rfl
  | succ width ih => cases text <;> simp [padTo, ih]

/-- The length of a command's response on a payload of the prescribed shape (R23). -/
theorem length_responseOf (i : Instr) (p : Payload) (h : p.wellFormed i = true) :
    (responseOf i p).length = responseLength i := by
  cases i with
  | pack565 r g b => rfl
  | fenc =>
    simp only [Payload.wellFormed, Bool.and_eq_true, beq_iff_eq] at h
    exact length_serialize _ h.1
  | tenc n => exact length_padTo _ _

/-- The three meanings at once: on a latched payload, a command begins its response if the payload has the
prescribed shape, and stops if it has not. -/
theorem exec_latch (i : Instr) (p : Payload) (s : State) :
    exec i (latchPayload p s) =
      if p.wellFormed i then
        .next (beginResponse (responseOf i p) (BitVec.ofNat 17 (responseLength i)) s)
      else .fault .wrongPayload := by
  cases i with
  | pack565 r g b =>
    simp only [exec, execPack565, payloadEmpty_latch p s r g b]
    cases p.wellFormed (.pack565 r g b) <;> rfl
  | fenc =>
    simp only [exec, execFenc, payloadIsFrame_latch p s]
    cases p.wellFormed .fenc <;> rfl
  | tenc n =>
    simp only [exec, execTenc, payloadIsText_latch p s n]
    cases p.wellFormed (.tenc n) <;> rfl

/-- Everything an offer on the port in Idle can do (R158). -/
theorem acceptOffer_cases (o : Offer) (s : State) :
    (∃ c, decode o.word = .fault c ∧ acceptOffer o s = .next (recordFault c s)) ∨
    (∃ i, decode o.word = .command i ∧ o.payload.wellFormed i = true ∧
      acceptOffer o s =
        .next (beginResponse (responseOf i o.payload) (BitVec.ofNat 17 (responseLength i)) s)) ∨
    (∃ i, decode o.word = .command i ∧ o.payload.wellFormed i = false ∧
      acceptOffer o s = .fault .wrongPayload) := by
  cases hd : decode o.word with
  | fault c => exact .inl ⟨c, rfl, by simp [acceptOffer, hd]⟩
  | command i =>
    refine .inr ?_
    cases hw : o.payload.wellFormed i with
    | true => exact .inl ⟨i, rfl, hw, by simp [acceptOffer, hd, exec_latch, hw]⟩
    | false => exact .inr ⟨i, rfl, hw, by simp [acceptOffer, hd, exec_latch, hw]⟩

/-- A reset with what falls in the same step leaves the block at its reset values and the host's side as it was, but
for the STATUS reads of that step. -/
theorem coincidentMoves_frame (old : Half) (ms : List HostMove) (s : State) :
    ∃ vs, coincidentMoves old ms s =
        { s with statusReads := vs ++ s.statusReads, draws := s.draws + vs.length } ∧
      vs.length = ms.count .readStatus ∧ ∀ v ∈ vs, v = old ∨ v = 0x0000#16 := by
  induction ms generalizing s with
  | nil => exact ⟨[], by simp [coincidentMoves]⟩
  | cons m ms ih =>
    cases m with
    | offer => simpa [coincidentMoves] using ih s
    | take => simpa [coincidentMoves] using ih s
    | readStatus =>
      obtain ⟨vs, hs, hl, hv⟩ := ih
        { s with
          statusReads := (if Config.resetReadGivesOld s.draws then old else 0x0000#16) :: s.statusReads
          draws := s.draws + 1 }
      refine ⟨vs ++ [if Config.resetReadGivesOld s.draws then old else 0x0000#16], ?_, ?_, ?_⟩
      · rw [coincidentMoves, hs]; simp [Nat.add_assoc, Nat.add_comm 1]
      · simp [hl]
      · intro v h
        rcases List.mem_append.mp h with h | h
        · exact hv v h
        · rw [List.mem_singleton] at h
          subst h
          split <;> simp

/-- A reset leaves every field of the block at its reset value and the host's side as it was, but for the STATUS reads
of the same step. -/
theorem hostReset_frame (ms : List HostMove) (s : State) :
    ∃ vs, hostReset ms s =
        { resetBlock s with statusReads := vs ++ s.statusReads, draws := s.draws + vs.length } ∧
      vs.length = ms.count .readStatus ∧ ∀ v ∈ vs, v = s.status ∨ v = 0x0000#16 :=
  coincidentMoves_frame s.status ms (resetBlock s)

/-- Below RLEN, POS advances without wrapping. -/
theorem pos_succ_toNat {s : State} (hk : s.pos.toNat < s.rlen.toNat) :
    (s.pos + 1#17).toNat = s.pos.toNat + 1 := by
  have := s.rlen.isLt
  rw [BitVec.toNat_add]
  simp
  omega

/-- Below RLEN, POS has just taken the last byte exactly when it was RLEN − 1. -/
theorem pos_succ_eq_rlen {s : State} (hk : s.pos.toNat < s.rlen.toNat) :
    s.pos + 1#17 = s.rlen ↔ s.pos.toNat + 1 = s.rlen.toNat := by
  rw [← BitVec.toNat_inj, pos_succ_toNat hk]

/-- RLEN as written by an accept is the length of the response. -/
@[simp] theorem toNat_responseLength (i : Instr) :
    (BitVec.ofNat 17 (responseLength i)).toNat = responseLength i := by
  cases i <;> rfl

/-- Every way a step answers (R158), by the event it takes. -/
inductive StepCase (s : State) : Host.Outcome State Fault Refusal → Prop where
  /-- No event: the block waits. -/
  | waits (hs : s.schedule = []) : StepCase s (.next s)
  /-- A command is held while a response is in flight (R154). -/
  | held (es : List Event) (hs : s.schedule = .move .offer :: es) (hp : s.phase = .emit) :
      StepCase s (.next { s with schedule := es })
  /-- The host has no command to offer. -/
  | nothingOffered (es : List Event) (hs : s.schedule = .move .offer :: es) (hp : s.phase = .idle)
      (ho : s.offers = []) : StepCase s (.next { s with schedule := es })
  /-- A word that faults is recorded (R132). -/
  | faulted (es : List Event) (o : Offer) (os : List Offer) (c : CmdFault)
      (hs : s.schedule = .move .offer :: es) (hp : s.phase = .idle) (ho : s.offers = o :: os)
      (hd : decode o.word = .fault c) :
      StepCase s (.next (recordFault c { s with schedule := es, offers := os }))
  /-- A command is accepted (R84, R85, R111). -/
  | accepted (es : List Event) (o : Offer) (os : List Offer) (i : Instr)
      (hs : s.schedule = .move .offer :: es) (hp : s.phase = .idle) (ho : s.offers = o :: os)
      (hd : decode o.word = .command i) (hw : o.payload.wellFormed i = true) :
      StepCase s (.next (beginResponse (responseOf i o.payload) (BitVec.ofNat 17 (responseLength i))
        { s with schedule := es, offers := os }))
  /-- A payload of the wrong shape stops (R146). -/
  | wrongPayload (es : List Event) (o : Offer) (os : List Offer) (i : Instr)
      (hs : s.schedule = .move .offer :: es) (hp : s.phase = .idle) (ho : s.offers = o :: os)
      (hd : decode o.word = .command i) (hw : o.payload.wellFormed i = false) :
      StepCase s (.fault .wrongPayload)
  /-- A take in Idle is no step. -/
  | takenIdle (es : List Event) (hs : s.schedule = .move .take :: es) (hp : s.phase = .idle) :
      StepCase s (.next { s with schedule := es })
  /-- A byte is emitted. -/
  | emitted (es : List Event) (b : Byte) (hs : s.schedule = .move .take :: es) (hp : s.phase = .emit)
      (hk : s.pos.toNat < s.rlen.toNat) (hb : s.resp.read s.pos.toNat = some b) :
      StepCase s (.next (emitByte b { s with schedule := es }))
  /-- A byte with no value must not be read (R22). -/
  | noValue (es : List Event) (hs : s.schedule = .move .take :: es) (hp : s.phase = .emit)
      (hb : currentByte s = none) : StepCase s (.fault .respNoValue)
  /-- STATUS is read (R27). -/
  | statusRead (es : List Event) (hs : s.schedule = .move .readStatus :: es) :
      StepCase s (.next (hostReadStatus { s with schedule := es }))
  /-- Reset (R150). -/
  | resetTo (es : List Event) (ms : List HostMove) (hs : s.schedule = .reset ms :: es) :
      StepCase s (.next (hostReset ms { s with schedule := es }))

/-- What the current byte is, where there is one. -/
theorem currentByte_eq_some {s : State} {b : Byte} (h : currentByte s = some b) :
    s.pos.toNat < s.rlen.toNat ∧ s.resp.read s.pos.toNat = some b := by
  by_cases hn : s.pos.toNat < s.rlen.toNat
  · exact ⟨hn, by simpa [currentByte, hn] using h⟩
  · simp [currentByte, hn] at h

/-- A step with an event to take handles it. -/
theorem step_cons {s : State} {e : Event} {es : List Event} (hs : s.schedule = e :: es) :
    step s = handleEvent e { s with schedule := es } := by
  simp [step, nextEvent, hs]

/-- A take in Emit emits the current byte. -/
theorem hostTake_emit {s : State} {b : Byte} (hp : s.phase = .emit) (hb : currentByte s = some b) :
    hostTake s = .next (emitByte b s) := by
  simp [hostTake, hp, hb]

/-- A take in Emit stops where there is no current byte. -/
theorem hostTake_noValue {s : State} (hp : s.phase = .emit) (hb : currentByte s = none) :
    hostTake s = .fault .respNoValue := by
  simp [hostTake, hp, hb]

/-- An offer in Idle accepts the oldest command. -/
theorem step_offer_idle {s : State} {o : Offer} {os : List Offer} {es : List Event}
    (hs : s.schedule = .move .offer :: es) (hp : s.phase = .idle) (ho : s.offers = o :: os) :
    step s = acceptOffer o { s with schedule := es, offers := os } := by
  simp [step_cons hs, handleEvent, hostOffer, hp, ho]

/-- Every step is one of the cases. -/
theorem step_cases (s : State) : StepCase s (step s) := by
  rcases hs : s.schedule with _ | ⟨e, es⟩
  · simpa [step, nextEvent, hs] using StepCase.waits hs
  rcases e with m | ms
  · cases m with
    | readStatus => rw [step_cons hs]; exact .statusRead es hs
    | take =>
      cases hp : s.phase with
      | idle => simpa [step_cons hs, handleEvent, hostTake, hp] using StepCase.takenIdle es hs hp
      | emit =>
        rw [step_cons hs]
        cases hb : currentByte s with
        | none =>
          rw [show handleEvent (.move .take) { s with schedule := es } = .fault .respNoValue from
            hostTake_noValue hp hb]
          exact .noValue es hs hp hb
        | some b =>
          rw [show handleEvent (.move .take) { s with schedule := es } =
            .next (emitByte b { s with schedule := es }) from hostTake_emit hp hb]
          exact .emitted es b hs hp (currentByte_eq_some hb).1 (currentByte_eq_some hb).2
    | offer =>
      cases hp : s.phase with
      | emit => simpa [step_cons hs, handleEvent, hostOffer, hp] using StepCase.held es hs hp
      | idle =>
        cases ho : s.offers with
        | nil => simpa [step_cons hs, handleEvent, hostOffer, hp, ho] using StepCase.nothingOffered es hs hp ho
        | cons o os =>
          rw [step_offer_idle hs hp ho]
          rcases acceptOffer_cases o { s with schedule := es, offers := os } with
            ⟨c, hd, h⟩ | ⟨i, hd, hw, h⟩ | ⟨i, hd, hw, h⟩ <;> rw [h]
          · exact .faulted es o os c hs hp ho hd
          · exact .accepted es o os i hs hp ho hd hw
          · exact .wrongPayload es o os i hs hp ho hd hw
  · rw [step_cons hs]; exact .resetTo es ms hs

end Sys2Proof.Machine
end

