-- ==== Sys2Proof/Laws/PerInstr.lean ====
section
/-! SUPPORT. Statements made command by command: each command's word has the fixed bits of its row of opcode_table.json. -/

namespace Sys2Proof.Laws.TableRow

/-- The row's mask in opcode_table.json. -/
def mask : Instr → Word
  | .pack565 _ _ _ => 0x000000FF#32
  | .fenc => 0xFFFFFFFF#32
  | .tenc _ => 0x000000FF#32

/-- The row's match in opcode_table.json. -/
def fixedBits : Instr → Word
  | .pack565 _ _ _ => 0x00000001#32
  | .fenc => 0x00000002#32
  | .tenc _ => 0x00000003#32

/-- The command's word has exactly the fixed bits of its row. -/
def Statement (i : Instr) : Prop := encode i &&& mask i = fixedBits i

/-- The low byte of a word under the mask of formats P and T. -/
theorem toNat_and_opMask (w : Word) : (w &&& 0x000000FF#32).toNat = w.toNat % 256 := by
  rw [BitVec.toNat_and]
  exact Nat.and_two_pow_sub_one_eq_mod w.toNat 8

theorem pack565 (r g b : Byte) : Statement (.pack565 r g b) := by
  refine BitVec.eq_of_toNat_eq ((toNat_and_opMask _).trans ?_)
  rw [toNat_encode_pack565]
  simp only [fixedBits, BitVec.toNat_ofNat]
  omega

theorem fenc : Statement .fenc := by
  show encode .fenc &&& mask .fenc = fixedBits .fenc
  decide

theorem tenc (n : BitVec 24) : Statement (.tenc n) := by
  refine BitVec.eq_of_toNat_eq ((toNat_and_opMask _).trans ?_)
  rw [toNat_encode_tenc]
  simp only [fixedBits, BitVec.toNat_ofNat]
  omega

end Sys2Proof.Laws.TableRow
end

