-- ==== Sys2Proof/Laws/Run.lean ====
section
/-! SUPPORT. Runs of several steps, one step at a time. -/

namespace Sys2Proof.Machine

@[simp] theorem run_zero (s : State) : core.run 0 s = .next s := rfl

/-- A run whose first step answers a next state goes on from there. -/
theorem run_succ_of_next {s t : State} (n : Nat) (h : step s = .next t) : core.run (n + 1) s = core.run n t := by
  have hc : core.step s = .next t := h
  simp only [Host.Core.run, hc]

/-- A run that answers a next state took a first step that does. -/
theorem next_of_run_succ {s t : State} {n : Nat} (h : core.run (n + 1) s = .next t) :
    ∃ u, step s = .next u ∧ core.run n u = .next t := by
  have hc : core.step s = step s := rfl
  simp only [Host.Core.run, hc] at h
  cases hs : step s with
  | next u => exact ⟨u, rfl, by simpa only [hs] using h⟩
  | fault r => simp [hs] at h
  | refused r => simp [hs] at h

/-- A run can be cut in two. -/
theorem run_add {s u : State} (m n : Nat) (h : core.run m s = .next u) : core.run (m + n) s = core.run n u := by
  induction m generalizing s with
  | zero => cases h; rw [Nat.zero_add]
  | succ m ih =>
    obtain ⟨v, hs, hv⟩ := next_of_run_succ h
    rw [show m + 1 + n = m + n + 1 by omega, run_succ_of_next _ hs]
    exact ih hv

end Sys2Proof.Machine
end

