-- ==== Sys2Proof/Tests/Slice0.lean ====
section
/-! SUPPORT. The model's own tests. Expected results come from spec/95_test_vectors.md and from the worked examples of
the rules; the witnesses at the end show states and operands that meet the hypotheses of the statements. -/

namespace Sys2Proof.Tests

open Sys2Proof.Machine

/-! Decoding: words written out bit by bit from R62, R63, R64. -/

/-- Format P, vector P9: R = 0x12, G = 0x34, B = 0x56. -/
theorem test_decode_pack565 :
    decode 0b00010010001101000101011000000001#32 = .command (.pack565 0x12 0x34 0x56) := by decide

/-- Format F, vector X6: the only FENC word. -/
theorem test_decode_fenc : decode 0b00000000000000000000000000000010#32 = .command .fenc := by decide

/-- Format T, vector T5: N = 129. -/
theorem test_decode_tenc : decode 0b00000000000000001000000100000011#32 = .command (.tenc 129) := by decide

/-- Vectors X1, X2, X3: illegal opcodes. -/
theorem test_decode_illegal :
    decode 0x00000000#32 = .fault .illegalOp ∧ decode 0x00000004#32 = .fault .illegalOp ∧
      decode 0x123456FF#32 = .fault .illegalOp := by decide

/-- Vectors X4, X5: reserved bits of FENC, the lowest and the highest. -/
theorem test_decode_reserved :
    decode 0x00000102#32 = .fault .reservedNonzero ∧ decode 0x80000002#32 = .fault .reservedNonzero := by decide

/-- The encoder on the words of vectors P9 and T5. -/
theorem test_encode :
    encode (.pack565 0x12 0x34 0x56) = 0x12345601#32 ∧ encode (.tenc 129) = 0x00008103#32 := by decide

/-- The table's words: row PACK565 with zero fields, and the bits above a short count are 0. -/
theorem test_decodeTableWord :
    decodeTableWord 32 1 = some (.pack565 0 0 0) ∧ decodeTableWord 32 2 = some .fenc ∧
      decodeTableWord 8 0x103 = some (.tenc 0) := by decide

/-! Well-formedness: one ill-formed payload for each check. -/

theorem test_pack565_refuses_text : Payload.wellFormed (.pack565 1 2 3) ⟨[], [0]⟩ = false := by decide
theorem test_pack565_refuses_pixels : Payload.wellFormed (.pack565 1 2 3) ⟨[⟨0, 0, 0⟩], []⟩ = false := by decide
theorem test_fenc_refuses_short_frame : Payload.wellFormed .fenc ⟨[⟨0, 0, 0⟩], []⟩ = false := by decide
theorem test_tenc_refuses_short_text : Payload.wellFormed (.tenc 2) ⟨[], [0]⟩ = false := by decide
theorem test_tenc_refuses_pixels : Payload.wellFormed (.tenc 0) ⟨[⟨0, 0, 0⟩], []⟩ = false := by decide
theorem test_tenc_takes_empty_text : Payload.wellFormed (.tenc 0) Payload.empty = true := by decide
theorem test_instr_wellFormed :
    (Instr.pack565 255 255 255).wellFormed ∧ Instr.fenc.wellFormed ∧ (Instr.tenc 0).wellFormed := by decide

/-! The pack: vectors P3 to P16 and RT1 to RT4. -/

theorem test_pack_fields :
    pack565 255 0 0 = 0xF800#16 ∧ pack565 0 255 0 = 0x07E0#16 ∧ pack565 0 0 255 = 0x001F#16 := by decide

theorem test_pack_low_bits :
    pack565 7 3 7 = 0x0000#16 ∧ pack565 8 4 8 = 0x0821#16 ∧ pack565 0xF7 0xFB 0xF7 = 0xF7DE#16 ∧
      pack565 0xAB 0xCD 0xEF = 0xAE7D#16 := by decide

theorem test_unpack :
    unpack565 0xFFFF#16 = ⟨248, 252, 248⟩ ∧ unpack565Replicate 0xFFFF#16 = ⟨255, 255, 255⟩ ∧
      unpack565 0x11AA#16 = ⟨0x10, 0x34, 0x50⟩ ∧ unpack565Replicate 0x11AA#16 = ⟨0x10, 0x34, 0x52⟩ := by decide

/-! The frame encoder. -/

/-- The frames of section 2.2: n pixels from number p on of a formula of y and x. -/
def framePixelsFrom (pixel : Nat → Nat → Pixel) : Nat → Nat → List Pixel
  | 0, _ => []
  | n + 1, p => pixel (p / 240) (p % 240) :: framePixelsFrom pixel n (p + 1)

/-- Frame F3 "GRAD": (x, y, 0). -/
@[irreducible] def grad : List Pixel := framePixelsFrom (fun y x => ⟨BitVec.ofNat 8 x, BitVec.ofNat 8 y, 0⟩) 57600 0

theorem length_framePixelsFrom (pixel : Nat → Nat → Pixel) (n p : Nat) :
    (framePixelsFrom pixel n p).length = n := by
  induction n generalizing p with
  | zero => rfl
  | succ n ih => simp [framePixelsFrom, ih]

/-- F3, offsets 0, 1 (input pixel (0, 239)) and 478, 479 (input pixel (0, 0)); without the mirror byte 0 is 00. -/
theorem test_fenc_grad_row0 :
    (serialize grad)[0]? = some 0xE8 ∧ (serialize grad)[1]? = some 0x00 ∧
      (serialize grad)[478]? = some 0x00 ∧ (serialize grad)[480]? = some 0xE8 := by decide +kernel

/-- The last burst starts at byte 114,688 and has 512 bytes (R86). -/
theorem test_last_burst : (burst 112 (List.replicate 115200 0x00)).length = 512 := by
  rw [burst, List.length_drop, List.length_take, List.length_replicate]
  decide

/-- Burst flags of a FENC response: offsets 1022, 1023, 114687 and 115199 (section 2.2). -/
theorem test_burst_flags :
    lastInBurst 115200#17 1022#17 = false ∧ lastInBurst 115200#17 1023#17 = true ∧
      lastInBurst 115200#17 114687#17 = true ∧ lastInBurst 115200#17 115199#17 = true ∧
      lastInResponse 115200#17 114687#17 = false ∧ lastInResponse 115200#17 115199#17 = true := by decide

/-- Burst flags of a 128-byte response: byte 127 only (R111). -/
theorem test_burst_flags_text :
    lastInBurst 128#17 126#17 = false ∧ lastInBurst 128#17 127#17 = true := by decide

/-! The text codec: vectors T1, T2, T10, T6. -/

theorem test_tenc_padding :
    fixed128 [] = List.replicate 128 0x00 ∧ fixed128 [0x41, 0x00] = fixed128 [0x41] := by decide

/-- T6: 127 × 61, then C3 A9: the character is cut. -/
theorem test_tenc_cuts_character :
    (fixed128 (List.replicate 127 0x61 ++ [0xC3, 0xA9]))[126]? = some 0x61 ∧
      (fixed128 (List.replicate 127 0x61 ++ [0xC3, 0xA9]))[127]? = some 0xC3 := by decide

/-! Single steps, from Program 1 and section 2.5. -/

/-- A reset block with one offer and the events to come. -/
def withOffer (o : Offer) (events : List Event) : State :=
  { State.reset with offers := [o], schedule := events }

/-- The response of PACK565 0x12, 0x34, 0x56 in flight: RESP = 11 AA, POS = k. -/
def emitting (k : Position) (events : List Event) : State :=
  { State.reset with phase := .emit, resp := [(0, 0x11), (1, 0xAA)], rlen := 2#17, pos := k, schedule := events }

/-- Program 1, first line: accepted, RESP = 11 AA, STATUS = BUSY. -/
theorem test_step_accepts_pack565 :
    step (withOffer ⟨0x12345601#32, Payload.empty⟩ [.move .offer]) = .next (emitting 0#17 []) ∧
      (emitting 0#17 []).status = 0x0001#16 := ⟨rfl, by decide⟩

/-- Program 1, the last byte: AA with both flags, then Idle with POS = RLEN. -/
theorem test_step_takes_last_byte :
    step (emitting 1#17 [.move .take]) =
      .next { emitting 2#17 [] with phase := .idle, emitted := [⟨0xAA, true, true⟩] } := rfl

/-- The first byte of two carries no flag. -/
theorem test_step_takes_first_byte :
    step (emitting 0#17 [.move .take]) = .next { emitting 1#17 [] with emitted := [⟨0x11, false, false⟩] } := rfl

/-- S3: an illegal opcode is recorded, STATUS = 0x0102, and the payload beside it is not taken. -/
theorem test_step_records_illegal :
    step (withOffer ⟨0x00000004#32, ⟨[], [0x41]⟩⟩ [.move .offer]) =
        .next { State.reset with lastStatus := 0x01, stickyFault := true } ∧
      ({ State.reset with lastStatus := 0x01, stickyFault := true } : State).status = 0x0102#16 :=
  ⟨rfl, by decide⟩

/-- X4: a reserved bit of FENC is recorded as 0x02. -/
theorem test_step_records_reserved :
    step (withOffer ⟨0x00000102#32, Payload.empty⟩ [.move .offer]) =
      .next { State.reset with lastStatus := 0x02, stickyFault := true } := rfl

/-- A command offered while a response is in flight is held (R154). -/
theorem test_step_holds_offer :
    step { emitting 1#17 [.move .offer] with offers := [⟨0x00000003#32, Payload.empty⟩] } =
      .next { emitting 1#17 [] with offers := [⟨0x00000003#32, Payload.empty⟩] } := rfl

/-- S5: a reset after a fault, with a response in flight: STATUS = 0x0000. -/
theorem test_step_reset :
    step { emitting 1#17 [.reset [.take]] with stickyFault := true } = .next State.reset := rfl

/-- A STATUS read of S6: BUSY, STICKY_FAULT, LAST_STATUS 0x00. -/
theorem test_step_reads_status :
    step { emitting 0#17 [.move .readStatus] with stickyFault := true } =
      .next { emitting 0#17 [] with stickyFault := true, statusReads := [0x0003#16] } := rfl

/-- A payload of the wrong shape stops (U10). -/
theorem test_step_wrong_payload :
    step (withOffer ⟨0x00000203#32, ⟨[], [0x41]⟩⟩ [.move .offer]) = .fault .wrongPayload := rfl

/-- TENC of T2 (one byte, 41): byte 0 is 41, byte 1 the pad, and byte 128 has no value. -/
theorem test_exec_tenc :
    ∃ t, exec (.tenc 1) { State.reset with textIn := [0x41] } = .next t ∧
      t.resp.read 0 = some 0x41 ∧ t.resp.read 1 = some 0x00 ∧ t.resp.read 127 = some 0x00 ∧
      t.resp.read 128 = none := ⟨_, rfl, rfl, rfl, rfl, rfl⟩

/-- FENC with one pixel too few stops. -/
theorem test_exec_fenc_short : exec .fenc { State.reset with frameIn := [⟨0, 0, 0⟩] } = .fault .wrongPayload := rfl

/-! The bus and the assembler. -/

/-- The word 0x12345601 most significant byte first, and least significant byte first. -/
theorem test_bus_orders :
    wordFromBus (fun i => ⟨3 - i.val, by omega⟩) (fun i => ([0x12, 0x34, 0x56, 0x01] : List Byte)[i.val]!) =
        0x12345601#32 ∧
      busByte id 0x12345601#32 0 = 0x01 := by decide

/-- Program 1, line 1, with its comment. -/
theorem test_asm_pack565 :
    readLine ['p', 'a', 'c', 'k', '5', '6', '5', ' ', '0', 'x', '1', '2', ',', ' ', '5', '2', ',', ' ', '8', '6',
      ' ', ';', ' ', '!'] = some (.pack565 0x12 0x34 0x56) := by decide

/-- Program 2, line 3, with 3 in place of 127: a repetition (log entry 14), then C3 A9; N = 5. -/
theorem test_asm_repetition :
    assembleText (fun _ => [])
        [['t', 'e', 'n', 'c', ' ', '[', '0', 'x', '6', '1', ' ', '×', ' ', '3', ',', ' ', '0', 'x', 'C', '3', ',', ' ',
          '0', 'x', 'A', '9', ']']] =
      some [⟨0x00000503#32, ⟨[], [0x61, 0x61, 0x61, 0xC3, 0xA9]⟩⟩] := by decide

/-- The empty list, and lists with a comma or a × too many. -/
theorem test_asm_list_ends :
    parseByteList [.sym ']'] = some [] ∧ parseByteList [.num 1, .sym ',', .sym ']'] = none ∧
      parseByteList [.num 1, .sym '×', .sym ']'] = none := by decide

/-- A text with the escape of R72, sent as N = 3 bytes: 41 0A 42. -/
theorem test_asm_tstr :
    assembleText (fun cs => cs.map fun c => BitVec.ofNat 8 c.toNat)
        [['t', 's', 't', 'r', ' ', '"', 'A', '\\', 'n', 'B', '"']] =
      some [⟨0x00000303#32, ⟨[], [0x41, 0x0A, 0x42]⟩⟩] := by decide

/-- The directive of frame F4: (y, x, (x + y) mod 256). -/
theorem test_asm_frame :
    readLine ['.', 'f', 'r', 'a', 'm', 'e', ' ', 'M', '=', '(', 'y', ',', 'x', ',', '(', 'x', '+', 'y', ')', ' ', 'm',
        'o', 'd', ' ', '2', '5', '6', ')'] =
      some (.frame ['M'] .y .x (.mod (.add .x .y) (.num 256))) := by decide

/-- Any other mnemonic, a channel above 255 (R71) and a remainder by 0 are rejected; pixel 245 is (y, x) = (1, 5). -/
theorem test_asm_rejects :
    readLine ['n', 'o', 'p'] = none ∧
      asmOffer (fun _ => []) [] (.pack565 256 0 0) = none ∧
      asmChannel (.mod .x (.num 0)) 7 = none ∧ asmChannel (.add .x .y) 245 = some 6 := by decide

/-! Witnesses: for each statement with hypotheses, a state and operands that meet all of them. -/

/-- DecodeFollowsOpcodeMap: a word for each clause, at the ends of the ranges. -/
theorem witness_DecodeFollowsOpcodeMap :
    (0xFFFFFF01#32).toNat % 256 = 0x01 ∧
    (0x00000002#32).toNat % 256 = 0x02 ∧ (0x00000002#32).toNat / 256 = 0 ∧
    (0x00000102#32).toNat % 256 = 0x02 ∧ (0x00000102#32).toNat / 256 ≠ 0 ∧
    (0xFFFFFF03#32).toNat % 256 = 0x03 ∧
    (0xFFFFFF00#32).toNat % 256 = 0x00 ∧ 0x04 ≤ (0x00000004#32).toNat % 256 ∧
    0x04 ≤ (0x000000FF#32).toNat % 256 := by decide

theorem witness_EncodeOfDecodeIsIdentity : decode 0xFFFFFF03#32 = .command (.tenc 16777215) := by decide

/-- A frame of 57,600 pixels: the hypothesis of MirrorReversesColumns, SerializationOrder, PackCommutesWithMirror,
EvenWordsArePackedPixels. -/
theorem witness_frame : grad.length = 57600 := by
  unfold grad
  exact length_framePixelsFrom _ _ _

theorem witness_BurstsPartitionTheStream : (serialize grad).length = 115200 := length_serialize _ witness_frame

/-- ExcessTextIsDiscarded: texts of 128 and of 129 bytes (T4 and T5). -/
theorem witness_ExcessTextIsDiscarded :
    State.reset.frameIn = [] ∧ (List.replicate 128 0x61 : List Byte).length = (128#24).toNat ∧
    (List.replicate 128 0x61 ++ [0x62] : List Byte).length = (129#24).toNat ∧
    (List.replicate 128 0x61 : List Byte).take 128 = (List.replicate 128 0x61 ++ [0x62]).take 128 := by simp

theorem witness_Pack565IsAccepted : State.reset.frameIn = [] ∧ State.reset.textIn = [] := by decide

theorem witness_FencIsAccepted :
    ({ State.reset with frameIn := grad } : State).frameIn.length = 57600 ∧
      ({ State.reset with frameIn := grad } : State).textIn = [] := by
  simp [witness_frame]

/-- FrameContractForEveryResize: an Idle block that is offered FENC of a frame RESIZE gives, and the takes. -/
theorem witness_FrameContractForEveryResize (resize : Resize) (img : SourceImage) :
    let o : Offer := { word := 0x00000002#32, payload := { pixels := (resize img).val, text := [] } }
    let s := withOffer o (.move .offer :: (List.replicate 115200 (.move .take) ++ []))
    s.phase = .idle ∧ s.offers = o :: [] ∧
      s.schedule = .move .offer :: (List.replicate 115200 (.move .take) ++ []) := ⟨rfl, rfl, rfl⟩

/-- The smallest image, and a RESIZE: the arguments of FrameContractForEveryResize exist. -/
theorem witness_Resize : Nonempty SourceImage ∧ Nonempty Resize :=
  ⟨⟨⟨1, 1, [⟨0, 0, 0⟩], Nat.le_refl _, Nat.le_refl _, rfl⟩⟩,
    ⟨fun _ => ⟨List.replicate Config.framePixels ⟨0, 0, 0⟩, List.length_replicate ..⟩⟩⟩

/-- TencIsAccepted, at N = 0 and at N = 1. -/
theorem witness_TencIsAccepted :
    State.reset.frameIn = [] ∧ State.reset.textIn.length = (0#24).toNat ∧
      ({ State.reset with textIn := [0x41] } : State).textIn.length = (1#24).toNat := by decide

/-- PayloadShapeDecides and ResponseIsAFunctionOfTheCommand: both shapes occur for each command. -/
theorem witness_PayloadShapeDecides :
    Payload.wellFormed (.pack565 1 2 3) Payload.empty = true ∧
    Payload.wellFormed (.pack565 1 2 3) ⟨[], [0]⟩ = false ∧
    Payload.wellFormed (.tenc 1) ⟨[], [0x41]⟩ = true ∧ Payload.wellFormed (.tenc 1) Payload.empty = false ∧
    Payload.wellFormed .fenc Payload.empty = false := by decide

/-- The check that FENC comes with no text, beside a frame of the right size. -/
theorem test_fenc_refuses_text : Payload.wellFormed .fenc ⟨grad, [0]⟩ = false := by
  simp [Payload.wellFormed]

theorem witness_fencPayload : Payload.wellFormed .fenc ⟨grad, []⟩ = true := by
  simp [Payload.wellFormed, witness_frame]

/-- StepRunsTheDecodedCommand. -/
theorem witness_StepRunsTheDecodedCommand :
    let s := withOffer ⟨0x12345601#32, Payload.empty⟩ [.move .offer]
    s.phase = .idle ∧ s.schedule = .move .offer :: [] ∧ s.offers = ⟨0x12345601#32, Payload.empty⟩ :: [] ∧
      decode 0x12345601#32 = .command (.pack565 0x12 0x34 0x56) := by decide

/-- PlacedCommandIsAccepted, one word for each row of the table. -/
theorem witness_PlacedCommandIsAccepted :
    (0x01 < 2 ^ 32 ∧ decode (BitVec.ofNat 32 0x01) = .command (.pack565 0 0 0)) ∧
    (0x02 < 2 ^ 32 ∧ decode (BitVec.ofNat 32 0x02) = .command .fenc) ∧
    (0x03 < 2 ^ 32 ∧ decode (BitVec.ofNat 32 0x03) = .command (.tenc 0)) := by decide

/-- FaultingWordsAreOnlyRecorded, with each code. -/
theorem witness_FaultingWordsAreOnlyRecorded :
    (withOffer ⟨0x00000004#32, Payload.empty⟩ [.move .offer]).phase = .idle ∧
    (withOffer ⟨0x00000004#32, Payload.empty⟩ [.move .offer]).schedule = .move .offer :: [] ∧
    (withOffer ⟨0x00000004#32, Payload.empty⟩ [.move .offer]).offers = ⟨0x00000004#32, Payload.empty⟩ :: [] ∧
    decode 0x00000004#32 = .fault .illegalOp ∧ decode 0x00000102#32 = .fault .reservedNonzero := by decide

/-- EventsThatAreNoStep: a state for each clause. -/
theorem witness_EventsThatAreNoStep :
    (emitting 0#17 [.move .offer]).schedule = .move .offer :: [] ∧ (emitting 0#17 [.move .offer]).phase = .emit ∧
    ({ State.reset with schedule := [.move .take] } : State).schedule = .move .take :: [] ∧
    ({ State.reset with schedule := [.move .take] } : State).phase = .idle ∧
    ({ State.reset with schedule := [.move .offer] } : State).schedule = .move .offer :: [] ∧
    ({ State.reset with schedule := [.move .offer] } : State).offers = [] ∧ State.reset.schedule = [] := by decide

/-- A state in Emit that meets the invariant, at the first and at the last byte. -/
theorem emitting_inv (k : Position) (hk : k.toNat < 2) (events : List Event) : Inv (emitting k events) where
  respWf := by show Memory.wf [(0, 0x11), (1, 0xAA)]; decide
  respCovers := fun j => by
    show ((Memory.ofBytes 0 [0x11, 0xAA]).read j).isSome = true ↔ j < 2
    simp
  rlenLegal := .inr (.inl rfl)
  idlePos := fun h => by cases h
  emitPos := fun _ => hk
  stickyRecords := fun _ => rfl
  statusLegal := .inl rfl
  latchesEmpty := ⟨rfl, rfl⟩

/-- TakeEmitsTheCurrentByte, at byte 0 and at byte RLEN − 1; EveryStepKeepsTheInvariant and PositionAdvancesByOne with
test_step_takes_last_byte. -/
theorem witness_TakeEmitsTheCurrentByte :
    (Inv (emitting 0#17 [.move .take]) ∧ (emitting 0#17 [.move .take]).phase = .emit ∧
      (emitting 0#17 [.move .take]).schedule = .move .take :: []) ∧
    Inv (emitting 1#17 [.move .take]) ∧
    ∃ t, step (emitting 1#17 [.move .take]) = .next t :=
  ⟨⟨emitting_inv _ (by decide) _, rfl, rfl⟩, emitting_inv _ (by decide) _, _, test_step_takes_last_byte⟩

/-- CommandEmitsItsWholeResponse: PACK565 with its two takes. -/
theorem witness_CommandEmitsItsWholeResponse :
    let s := withOffer ⟨0x12345601#32, Payload.empty⟩ [.move .offer, .move .take, .move .take, .move .readStatus]
    let i := Instr.pack565 0x12 0x34 0x56
    s.phase = .idle ∧ s.offers = ⟨0x12345601#32, Payload.empty⟩ :: [] ∧ decode 0x12345601#32 = .command i ∧
      Payload.wellFormed i Payload.empty = true ∧
      s.schedule = .move .offer :: (List.replicate (responseLength i) (.move .take) ++ [.move .readStatus]) := by
  decide

/-- InterleavedMovesDoNotChangeTheOutput: the last byte taken after a STATUS read, with nothing to offer; and the first of
two bytes taken after an offer that is held. -/
theorem witness_InterleavedMovesDoNotChangeTheOutput :
    (let s := emitting 1#17 [.move .readStatus, .move .take]
     let moves : List HostMove := [.readStatus, .take]
     Inv s ∧ s.phase = .emit ∧ s.schedule = moves.map Event.move ++ [] ∧
       s.pos.toNat + moves.count .take ≤ s.rlen.toNat ∧ s.offers = []) ∧
    (let s := emitting 0#17 [.move .offer, .move .take]
     let moves : List HostMove := [.offer, .take]
     Inv s ∧ s.phase = .emit ∧ s.schedule = moves.map Event.move ++ [] ∧
       s.pos.toNat + moves.count .take < s.rlen.toNat) :=
  ⟨⟨emitting_inv _ (by decide) _, rfl, rfl, by decide, rfl⟩, emitting_inv _ (by decide) _, rfl, rfl, by decide⟩

/-- OutputGrowsOnlyByTakes, OnlyTheseStepsWriteTheResponse, LastStatusIsTheOutcome, StickyFaultIsClearedOnlyByReset: a
step that answers a next state for each kind of event, so for each clause. -/
theorem witness_steps :
    (∃ t, step (withOffer ⟨0x12345601#32, Payload.empty⟩ [.move .offer]) = .next t) ∧
    (∃ t, step (withOffer ⟨0x00000004#32, Payload.empty⟩ [.move .offer]) = .next t ∧ t.stickyFault = true) ∧
    (∃ t, step (emitting 0#17 [.move .take]) = .next t ∧ t.emitted.length = 1) ∧
    (∃ t, step (emitting 0#17 [.move .offer]) = .next t) ∧
    (∃ t, step { emitting 0#17 [.reset []] with stickyFault := true } = .next t ∧ t.stickyFault = false) ∧
    ∃ t, step State.reset = .next t :=
  ⟨⟨_, rfl⟩, ⟨_, rfl, rfl⟩, ⟨_, rfl, rfl⟩, ⟨_, rfl⟩, ⟨_, rfl, rfl⟩, ⟨_, rfl⟩⟩

/-- CommandsAreTakenInArrivalOrder: a step that takes a command. -/
theorem witness_CommandsAreTakenInArrivalOrder :
    ∃ t, step (withOffer ⟨0x12345601#32, Payload.empty⟩ [.move .offer]) = .next t ∧
      t.offers ≠ (withOffer ⟨0x12345601#32, Payload.empty⟩ [.move .offer]).offers :=
  ⟨_, rfl, by decide⟩

/-- OnlyTheseStepsWritePhase: a step of each kind that writes PHASE. -/
theorem witness_OnlyTheseStepsWritePhase :
    (∃ t, step (withOffer ⟨0x12345601#32, Payload.empty⟩ [.move .offer]) = .next t ∧ t.phase ≠ .idle) ∧
    (∃ t, step (emitting 1#17 [.move .take]) = .next t ∧ t.phase ≠ .emit) ∧
    ∃ t, step (emitting 0#17 [.reset []]) = .next t ∧ t.phase ≠ .emit :=
  ⟨⟨_, rfl, by decide⟩, ⟨_, rfl, by decide⟩, ⟨_, rfl, by decide⟩⟩

theorem witness_StatusLayout :
    (emitting 0#17 [.move .readStatus]).schedule = .move .readStatus :: [] := rfl

theorem witness_ResetWinsTheStep :
    (emitting 0#17 [.reset [.offer, .take, .readStatus]]).schedule = .reset [.offer, .take, .readStatus] :: [] := rfl

/-- ResetAbandonsTheResponse: a reset in mid-response, then takes, a STATUS read, a second reset and an offer of a word
that faults. -/
theorem witness_ResetAbandonsTheResponse :
    let events : List Event := [.move .take, .move .readStatus, .reset [.take], .move .offer, .move .take]
    let s := { emitting 1#17 (.reset [] :: (events ++ [])) with offers := [⟨0x00000004#32, Payload.empty⟩] }
    s.schedule = .reset [] :: (events ++ []) ∧
      s.offers.take (events.count (.move .offer)) = [⟨0x00000004#32, Payload.empty⟩] ∧
      decode 0x00000004#32 = .fault .illegalOp := by decide

/-- ReachableStatesSatisfyR34: a run from reset that reaches Emit. -/
theorem witness_ReachableStatesSatisfyR34 :
    ∃ t, core.run 1 { State.reset with offers := [⟨0x12345601#32, Payload.empty⟩], schedule := [.move .offer] } =
      .next t ∧ t.phase = .emit := ⟨_, rfl, rfl⟩

/-- ObedientHostIsNeverStopped and ProgramOutputIsTheResponsesInOrder: one state that meets the invariant, Idle after a
response, whose host has a faulting word (with a payload beside it) and a command still to get taken. -/
theorem witness_obedientHost :
    let s : State := { emitting 2#17 [.move .offer, .move .offer, .move .take, .move .take] with
      phase := .idle
      offers := [⟨0x00000004#32, ⟨[], [0x41]⟩⟩, ⟨0x12345601#32, Payload.empty⟩] }
    Inv s ∧ HostObeys s ∧ s.phase = .idle ∧ s.schedule = s.offers.flatMap eagerMoves := by
  refine ⟨⟨by show Memory.wf [(0, 0x11), (1, 0xAA)]; decide, fun j => ?_, .inr (.inl rfl), fun _ => rfl,
    fun h => absurd h (by decide), fun _ => rfl, .inl rfl, ⟨rfl, rfl⟩⟩, fun o ho i hd => ?_, rfl, by decide⟩
  · show ((Memory.ofBytes 0 [0x11, 0xAA]).read j).isSome = true ↔ j < 2
    simp
  rcases List.mem_cons.mp ho with rfl | ho
  · rw [show decode 0x00000004#32 = .fault .illegalOp by decide] at hd; cases hd
  · rw [List.mem_singleton] at ho
    subst ho
    rw [show decode 0x12345601#32 = .command (.pack565 0x12 0x34 0x56) by decide] at hd
    cases hd
    rfl

/-- AssemblerForms: a value at each end of a clause's range, and a named frame. -/
theorem witness_AssemblerForms :
    (255 ≤ 255 ∧ 255 < 256) ∧ ([0x61] : List Byte).length ≤ 16777215 ∧
      16777215 < (List.replicate 16777216 0 : List Nat).length ∧
      asmLookup ['F'] [(['F'], [⟨1, 2, 3⟩])] = some [⟨1, 2, 3⟩] :=
  ⟨by decide, by decide, by rw [List.length_replicate]; decide, by decide⟩

/-- FrameDirectiveListsItsPixels: the frame (255, 0, x) has values up to 255 everywhere, and its second clause makes of it
a frame that meets the first; 256 is above. -/
theorem witness_FrameDirectiveListsItsPixels :
    (∀ y x, y ≤ 239 → x ≤ 239 → ∃ u v w, AsmExpr.eval y x (.num 255) = some u ∧ AsmExpr.eval y x (.num 0) = some v ∧
      AsmExpr.eval y x .x = some w ∧ u ≤ 255 ∧ v ≤ 255 ∧ w ≤ 255) ∧
    255 < 256 ∧ AsmExpr.eval 239 239 (.num 256) = some 256 :=
  ⟨fun _ x _ hx => ⟨255, 0, x, rfl, rfl, rfl, by decide, by decide, by omega⟩, by decide, rfl⟩

/-- AssemblerRejects: a line with another mnemonic, and a program with each kind of line that is rejected. -/
theorem witness_AssemblerRejects :
    lexLine .between ['n', 'o', 'p'] = some [.name ['n', 'o', 'p']] ∧ readLine ['n', 'o', 'p'] = none ∧
      ['n', 'o', 'p'] ∈ [[], ['n', 'o', 'p']] ∧
      AsmLine.pack565 256 0 0 ∈ [AsmLine.blank, .pack565 256 0 0] ∧
      16777215 < (List.replicate 16777216 0 : List Nat).length ∧
      AsmLine.frame ['F'] (.num 256) (.num 0) (.num 0) ∈ [AsmLine.frame ['F'] (.num 256) (.num 0) (.num 0)] ∧
      asmFrame (.num 256) (.num 0) (.num 0) = none :=
  ⟨by decide, by decide, by decide, by decide, by rw [List.length_replicate]; decide, by decide, rfl⟩

/-- AssembledOffersObeyTheHostDuty. -/
theorem witness_AssembledOffersObeyTheHostDuty :
    (∀ w, AsmLine.word w ∉ [AsmLine.pack565 1 2 3, .tenc [0x41]]) ∧
      assemble (fun _ => []) [] [.pack565 1 2 3, .tenc [0x41]] =
        some [⟨0x01020301#32, Payload.empty⟩, ⟨0x00000103#32, ⟨[], [0x41]⟩⟩] := by
  refine ⟨fun w h => ?_, by decide⟩
  simp at h

theorem witness_BusOrderKeepsTheWord : Function.Bijective (fun i : Fin 4 => (⟨3 - i.val, by omega⟩ : Fin 4)) := by
  decide

end Sys2Proof.Tests
end

section
/-! R9: what a command leaves in the block is fixed by its word and its payload. -/

namespace Sys2Proof.Machine

/-- R84, R85, R111: the accepting half of `exec_latch`, for every command at once. -/
theorem exec_latch_of_wellFormed {i : Instr} {p : Payload} (h : p.wellFormed i = true) (s : State) :
    exec i (latchPayload p s) =
      .next (beginResponse (responseOf i p) (BitVec.ofNat 17 (responseLength i)) s) := by
  rw [exec_latch, if_pos h]

/-- Settles O23: each command begins the same response, and beginResponse takes none of the five fields from the
state it finds. -/
theorem responseIsAFunctionOfTheCommand : Obligations.ResponseIsAFunctionOfTheCommand := by
  intro i p s₁ s₂ h
  refine ⟨_, _, exec_latch_of_wellFormed h s₁, exec_latch_of_wellFormed h s₂, rfl, rfl, rfl, rfl, rfl, ?_⟩
  exact Memory.read_ofBytes (responseOf i p)

end Sys2Proof.Machine
end

section
/-! What a step can do, read from the next state it answers: the inversions of `step` that the proofs about single
fields and about the invariant cite. -/

namespace Sys2Proof.Machine

/-- `step_cases` of a step that answers a next state: the two stops drop out. -/
theorem stepCase_of_next {s t : State} (h : step s = .next t) : StepCase s (.next t) :=
  h ▸ step_cases s

/-- R132: an offered word that faults is recorded. -/
theorem step_of_faultWord {s : State} {es : List Event} {o : Offer} {os : List Offer} {c : CmdFault}
    (hs : s.schedule = .move .offer :: es) (hp : s.phase = .idle) (ho : s.offers = o :: os)
    (hd : decode o.word = .fault c) : step s = .next (recordFault c { s with schedule := es, offers := os }) := by
  rw [step_offer_idle hs hp ho, acceptOffer, hd]

/-- R158: an offered command that answers a next state has the prescribed payload and begins its response. -/
theorem next_of_command {s t : State} {es : List Event} {o : Offer} {os : List Offer} {i : Instr}
    (hs : s.schedule = .move .offer :: es) (hp : s.phase = .idle) (ho : s.offers = o :: os)
    (hd : decode o.word = .command i) (h : step s = .next t) :
    o.payload.wellFormed i = true ∧
      t = beginResponse (responseOf i o.payload) (BitVec.ofNat 17 (responseLength i))
        { s with schedule := es, offers := os } := by
  have hx : exec i (latchPayload o.payload { s with schedule := es, offers := os }) = .next t := by
    simpa only [step_offer_idle hs hp ho, acceptOffer, hd] using h
  rw [exec_latch] at hx
  split at hx
  case isTrue hw => exact ⟨hw, (Host.Outcome.next.inj hx).symm⟩
  case isFalse => cases hx

/-- R150: a reset event resets the block. -/
theorem step_of_reset {s : State} {ms : List HostMove} {es : List Event} (hs : s.schedule = .reset ms :: es) :
    step s = .next (hostReset ms { s with schedule := es }) := by
  rw [step_cons hs, handleEvent]

@[simp] theorem hostReset_phase (ms : List HostMove) (s : State) : (hostReset ms s).phase = .idle := by
  obtain ⟨vs, h, -⟩ := hostReset_frame ms s; rw [h]; rfl
@[simp] theorem hostReset_rlen (ms : List HostMove) (s : State) : (hostReset ms s).rlen = 0#17 := by
  obtain ⟨vs, h, -⟩ := hostReset_frame ms s; rw [h]; rfl
@[simp] theorem hostReset_pos (ms : List HostMove) (s : State) : (hostReset ms s).pos = 0#17 := by
  obtain ⟨vs, h, -⟩ := hostReset_frame ms s; rw [h]; rfl
@[simp] theorem hostReset_lastStatus (ms : List HostMove) (s : State) : (hostReset ms s).lastStatus = 0x00#8 := by
  obtain ⟨vs, h, -⟩ := hostReset_frame ms s; rw [h]; rfl
@[simp] theorem hostReset_stickyFault (ms : List HostMove) (s : State) :
    (hostReset ms s).stickyFault = false := by
  obtain ⟨vs, h, -⟩ := hostReset_frame ms s; rw [h]; rfl

end Sys2Proof.Machine
end

section
/-! R34: the invariant holds at reset, every step keeps it, and so it holds of every reachable state. -/

namespace Sys2Proof.Machine

/-- The invariant speaks of the block alone: the host's side may be anything. -/
theorem Inv.withHost {s : State} (h : Inv s) (offers : List Offer) (schedule : List Event) (emitted : List OutByte)
    (statusReads : List Half) (draws : Nat) :
    Inv { s with offers, schedule, emitted, statusReads, draws } :=
  { h with }

/-- R130: the two fault codes are legal values of LAST_STATUS. -/
theorem cmdFaultCode_legal (c : CmdFault) : cmdFaultCode c = 0x01#8 ∨ cmdFaultCode c = 0x02#8 := by
  cases c
  · exact .inl rfl
  · exact .inr rfl

/-- R132: a recorded fault keeps the invariant, since it also sets STICKY_FAULT. -/
theorem Inv.recordFault {s : State} (h : Inv s) (c : CmdFault) : Inv (recordFault c s) :=
  { h with
    stickyRecords := fun hf => by cases hf
    statusLegal := .inr (cmdFaultCode_legal c) }

/-- R23: the response lengths are positive and fit in RESP. -/
theorem responseLength_bounds (i : Instr) : 0 < responseLength i ∧ responseLength i ≤ Config.frameBytes := by
  cases i <;> simp [responseLength]

/-- R84, R85, R111: an accepted command puts the invariant in place, whatever state it finds. -/
theorem inv_beginResponse {i : Instr} {p : Payload} (hw : p.wellFormed i = true) (s : State) :
    Inv (beginResponse (responseOf i p) (BitVec.ofNat 17 (responseLength i)) s) where
  respWf := by
    refine Memory.wf_ofBytes _ 0 ?_
    rw [Nat.zero_add, length_responseOf i p hw]
    exact (responseLength_bounds i).2
  respCovers k := by
    rw [beginResponse_resp, Memory.read_ofBytes, beginResponse_rlen, toNat_responseLength, ← length_responseOf i p hw]
    simp
  rlenLegal := by cases i <;> simp [responseLength]
  idlePos hp := by cases hp
  emitPos _ := by
    rw [beginResponse_pos, beginResponse_rlen, toNat_responseLength]
    exact (responseLength_bounds i).1
  stickyRecords _ := rfl
  statusLegal := .inl rfl
  latchesEmpty := ⟨rfl, rfl⟩

/-- R158: an emit step below RLEN keeps the invariant: PHASE falls to Idle exactly when POS reaches RLEN. -/
theorem Inv.emitByte {s : State} (h : Inv s) (hp : s.phase = .emit) (b : Byte) : Inv (emitByte b s) := by
  have hk : s.pos.toNat < s.rlen.toNat := h.emitPos hp
  by_cases hlast : s.pos + 1#17 = s.rlen
  · have hidle : (Machine.emitByte b s).phase = .idle := by rw [emitByte_phase, if_pos hlast]
    exact { h with
      idlePos := fun _ => hlast
      emitPos := fun he => by cases hidle.symm.trans he }
  · have hemit : (Machine.emitByte b s).phase = .emit := by rw [emitByte_phase, if_neg hlast, hp]
    refine { h with
      idlePos := fun hi => by cases hemit.symm.trans hi
      emitPos := fun _ => ?_ }
    rw [emitByte_pos, emitByte_rlen, pos_succ_toNat hk]
    rw [pos_succ_eq_rlen hk] at hlast
    omega

/-- R33: the reset values of the block meet the invariant, whatever the state before. -/
theorem inv_resetBlock (s : State) : Inv (resetBlock s) where
  respWf := Memory.wf_nil
  respCovers k := by simp
  rlenLegal := .inl rfl
  idlePos _ := rfl
  emitPos hp := by cases hp
  stickyRecords _ := rfl
  statusLegal := .inl rfl
  latchesEmpty := ⟨rfl, rfl⟩

/-- R150: a reset event puts the invariant in place, whatever falls in the same step. -/
theorem inv_hostReset (ms : List HostMove) (s : State) : Inv (hostReset ms s) := by
  obtain ⟨vs, h, -⟩ := hostReset_frame ms s
  rw [h]
  exact (inv_resetBlock s).withHost ..

/-- Settles O42: the state of R33 is the block at its reset values. -/
theorem invariantAtReset : Obligations.InvariantAtReset :=
  inv_resetBlock State.reset

/-- Settles O43, by the cases of a step: it leaves the block alone, or it is one of the four operations above. -/
theorem everyStepKeepsTheInvariant : Obligations.EveryStepKeepsTheInvariant := by
  intro s t h hstep
  cases stepCase_of_next hstep with
  | waits => exact h
  | held | nothingOffered | takenIdle | statusRead => exact h.withHost ..
  | faulted => exact (h.withHost ..).recordFault _
  | accepted es o os i hs hp ho hd hw => exact inv_beginResponse hw _
  | emitted es b hs hp => exact (h.withHost s.offers es s.emitted s.statusReads s.draws).emitByte hp b
  | resetTo => exact inv_hostReset _ _

/-- The invariant holds after any run of steps from a state that meets it. -/
theorem Inv.run {n : Nat} {s t : State} (h : Inv s) (hrun : core.run n s = .next t) : Inv t := by
  induction n generalizing s with
  | zero => cases hrun; exact h
  | succ n ih =>
    obtain ⟨u, hs, hu⟩ := next_of_run_succ hrun
    exact ih (everyStepKeepsTheInvariant s u h hs) hu

/-- R34: in Emit, RLEN is the length of a response, since POS is below it. -/
theorem Inv.rlen_of_emit {s : State} (h : Inv s) (hp : s.phase = .emit) :
    s.rlen.toNat = 2 ∨ s.rlen.toNat = 128 ∨ s.rlen.toNat = 115200 := by
  have hpos := h.emitPos hp
  rcases h.rlenLegal with hr | hr | hr | hr <;> rw [hr] at hpos ⊢
  · exact absurd hpos (Nat.not_lt_zero _)
  · exact .inl rfl
  · exact .inr (.inl rfl)
  · exact .inr (.inr rfl)

/-- Settles O44: the invariant holds at reset beside any offers and schedule, so it holds after any run, and it says
the three clauses of R34. -/
theorem reachableStatesSatisfyR34 : Obligations.ReachableStatesSatisfyR34 := by
  intro offers schedule n t hrun
  have h : Inv t := (invariantAtReset.withHost offers schedule [] [] 0).run hrun
  exact ⟨h.idlePos, fun hp => ⟨h.rlen_of_emit hp, h.emitPos hp⟩, h.stickyRecords⟩

end Sys2Proof.Machine
end

section
/-! What writes each state element: PHASE (R21), RESP and RLEN (R22, R23), POS (R24), LAST_STATUS (R25) and
STICKY_FAULT (R26). -/

namespace Sys2Proof.Machine

/-- Settles O33, by the cases of a step: only an accept, the take of byte RLEN - 1 and a reset write PHASE. -/
theorem onlyTheseStepsWritePhase : Obligations.OnlyTheseStepsWritePhase := by
  intro s t hstep hne
  cases stepCase_of_next hstep with
  | waits | held | nothingOffered | faulted | takenIdle | statusRead => exact absurd rfl hne
  | accepted es o os i hs hp ho hd => exact .inl ⟨hp, rfl, o, os, es, i, hs, ho, hd⟩
  | emitted es b hs hp =>
    rw [emitByte_phase] at hne ⊢
    split at hne
    case isTrue hlast => exact .inr (.inl ⟨hp, if_pos hlast, es, hs, hlast⟩)
    case isFalse => exact absurd rfl hne
  | resetTo es ms hs => exact .inr (.inr ⟨hostReset_phase _ _, ms, es, hs⟩)

/-- Settles O34: the accept and the reset by what they write, every other step by the cases of a step. -/
theorem onlyTheseStepsWriteTheResponse : Obligations.OnlyTheseStepsWriteTheResponse := by
  intro s t hstep
  refine ⟨fun o os es i hp hs ho hd => ?_, fun ms es hs => ?_, fun hnoReset hnoAccept => ?_⟩
  · obtain ⟨-, rfl⟩ := next_of_command hs hp ho hd hstep
    refine ⟨Memory.read_ofBytes _, ?_⟩
    rw [beginResponse_rlen, toNat_responseLength]
    cases i <;> rfl
  · cases (step_of_reset hs).symm.trans hstep
    exact hostReset_rlen _ _
  · cases stepCase_of_next hstep with
    | waits | held | nothingOffered | faulted | takenIdle | emitted | statusRead => exact ⟨rfl, rfl⟩
    | accepted es o os i hs hp ho hd => exact absurd hd (hnoAccept o os es i hp hs ho)
    | resetTo es ms hs => exact absurd hs (hnoReset ms es)

/-- R34: POS never passes RLEN. -/
theorem Inv.pos_le_rlen {s : State} (h : Inv s) : s.pos.toNat ≤ s.rlen.toNat := by
  cases hp : s.phase with
  | idle => rw [h.idlePos hp]
  | emit => exact (h.emitPos hp).le

/-- Settles O35: the bounds are the invariant of the next state, and the writer of POS is read from the cases. -/
theorem positionAdvancesByOne : Obligations.PositionAdvancesByOne := by
  intro s t h hstep
  have ht : Inv t := everyStepKeepsTheInvariant s t h hstep
  refine ⟨ht.pos_le_rlen, ht.emitPos, ?_⟩
  cases stepCase_of_next hstep with
  | waits | held | nothingOffered | faulted | takenIdle | statusRead => exact .inr (.inr (.inr rfl))
  | accepted es o os i hs hp ho hd => exact .inl ⟨o, os, es, i, hp, hs, ho, hd, rfl⟩
  | emitted es b hs hp hk => exact .inr (.inl ⟨es, hp, hs, pos_succ_toNat hk⟩)
  | resetTo es ms hs => exact .inr (.inr (.inl ⟨ms, es, hs, hostReset_pos _ _⟩))

/-- Settles O36: a word taken on the port by what it decodes to, a reset by what it writes, every other step by the
cases of a step. -/
theorem lastStatusIsTheOutcome : Obligations.LastStatusIsTheOutcome := by
  intro s t hstep
  refine ⟨fun o os es hp hs ho => ?_, fun ms es hs => ?_, fun hnoReset hnotTaken => ?_⟩
  · cases hd : decode o.word with
    | command i =>
      obtain ⟨-, rfl⟩ := next_of_command hs hp ho hd hstep
      rfl
    | fault c =>
      cases (step_of_faultWord hs hp ho hd).symm.trans hstep
      cases c <;> rfl
  · cases (step_of_reset hs).symm.trans hstep
    exact hostReset_lastStatus _ _
  · cases stepCase_of_next hstep with
    | waits | held | nothingOffered | takenIdle | emitted | statusRead => rfl
    | faulted es o os c hs hp ho | accepted es o os i hs hp ho => simp [hp, ho, hs] at hnotTaken
    | resetTo es ms hs => exact absurd hs (hnoReset ms es)

/-- R26: a step other than a recorded fault and a reset keeps STICKY_FAULT. -/
theorem stickyFault_cases {s t : State} (hstep : step s = .next t) :
    (∃ o os es c, s.phase = .idle ∧ s.schedule = .move .offer :: es ∧ s.offers = o :: os ∧
      decode o.word = .fault c ∧ t.stickyFault = true) ∨
    (∃ ms es, s.schedule = .reset ms :: es ∧ t.stickyFault = false) ∨ t.stickyFault = s.stickyFault := by
  cases stepCase_of_next hstep with
  | waits | held | nothingOffered | accepted | takenIdle | emitted | statusRead => exact .inr (.inr rfl)
  | faulted es o os c hs hp ho hd => exact .inl ⟨o, os, es, c, hp, hs, ho, hd, rfl⟩
  | resetTo es ms hs => exact .inr (.inl ⟨ms, es, hs, hostReset_stickyFault _ _⟩)

/-- Settles O37: the two writers by what they write, and each change of STICKY_FAULT by its writer. -/
theorem stickyFaultIsClearedOnlyByReset : Obligations.StickyFaultIsClearedOnlyByReset := by
  intro s t hstep
  refine ⟨fun o os es c hp hs ho hd => ?_, fun ms es hs => ?_, fun hbefore hafter => ?_, fun hbefore hafter => ?_⟩
  · cases (step_of_faultWord hs hp ho hd).symm.trans hstep
    rfl
  · cases (step_of_reset hs).symm.trans hstep
    exact hostReset_stickyFault _ _
  · rcases stickyFault_cases hstep with ⟨_, _, _, _, _, _, _, _, hset⟩ | ⟨ms, es, hs, -⟩ | hkept
    · simp [hafter] at hset
    · exact ⟨ms, es, hs⟩
    · simp [hbefore, hafter] at hkept
  · rcases stickyFault_cases hstep with ⟨o, os, es, c, hp, hs, ho, hd, -⟩ | ⟨_, _, _, hclear⟩ | hkept
    · exact ⟨o, os, es, c, hp, hs, ho, hd⟩
    · simp [hafter] at hclear
    · simp [hbefore, hafter] at hkept

end Sys2Proof.Machine
end

section
/-! R27: the layout of STATUS, and its value after reset (R33). -/

namespace Sys2Proof.Machine

/-- R27: the number STATUS holds, field by field. -/
theorem status_toNat (s : State) :
    s.status.toNat = s.lastStatus.toNat * 2 ^ 8 + s.stickyFault.toNat * 2 + s.phase.busy.toNat := by
  simp only [State.status, toNat_append_eq, BitVec.toNat_ofBool, BitVec.toNat_ofNat]
  omega

/-- The two flag bits of STATUS as a number: they stay below bit 2. -/
theorem status_flags_lt (s : State) : s.stickyFault.toNat * 2 + s.phase.busy.toNat < 4 := by
  have hsticky : s.stickyFault.toNat < 2 := s.stickyFault.toNat_lt
  have hbusy : s.phase.busy.toNat < 2 := s.phase.busy.isLt
  omega

/-- Bit 0 of STATUS is BUSY. -/
theorem status_bit0_iff (s : State) : s.status.getLsbD 0 = true ↔ s.phase = .emit := by
  rw [← BitVec.testBit_toNat, status_toNat, Nat.testBit_zero, decide_eq_true_iff]
  cases s.phase <;> simp [Phase.busy] <;> omega

/-- Bit 1 of STATUS is STICKY_FAULT. -/
theorem status_bit1 (s : State) : s.status.getLsbD 1 = s.stickyFault := by
  have hbusy : s.phase.busy.toNat < 2 := s.phase.busy.isLt
  rw [← BitVec.testBit_toNat, status_toNat, ← Nat.testBit_div_two, Nat.testBit_zero]
  cases s.stickyFault <;> simp <;> omega

/-- Bits 7:2 of STATUS are 0. -/
theorem status_bits7to2 (s : State) : s.status.extractLsb 7 2 = 0#6 := by
  have hflags := status_flags_lt s
  refine BitVec.eq_of_toNat_eq ?_
  rw [BitVec.extractLsb_toNat, status_toNat, Nat.shiftRight_eq_div_pow, BitVec.toNat_zero]
  omega

/-- Bits 15:8 of STATUS are LAST_STATUS. -/
theorem status_bits15to8 (s : State) : s.status.extractLsb 15 8 = s.lastStatus := by
  have hflags := status_flags_lt s
  refine BitVec.eq_of_toNat_eq ?_
  rw [BitVec.extractLsb_toNat, status_toNat, Nat.shiftRight_eq_div_pow]
  omega

/-- R33: STATUS after reset. -/
theorem status_reset : State.reset.status = 0x0000#16 := by
  decide

/-- Settles O38: the four fields of STATUS, its reset value, and the read event, which is `hostReadStatus`. -/
theorem statusLayout : Obligations.StatusLayout := by
  intro s
  refine ⟨status_bit0_iff s, status_bit1 s, status_bits7to2 s, status_bits15to8 s, status_reset, fun es hs => ?_⟩
  rw [step_cons hs]
  rfl

/-- Settles O39, by the fields of the reset state. -/
theorem resetValues : Obligations.ResetValues :=
  ⟨reset_phase, reset_rlen, reset_pos, reset_lastStatus, reset_stickyFault, status_reset⟩

end Sys2Proof.Machine
end

section
/-! R45: a command word carried over a byte-wide bus, bit by bit. -/

namespace Sys2Proof.Machine

/-- R45: the byte of a lane, put back in its place, is the word's bits of that lane and zeros elsewhere. -/
theorem getLsbD_wordLane_shiftLeft (w : Word) (lane : Fin 4) {i : Nat} (hi : i < 32) :
    ((wordLane w lane).setWidth 32 <<< (8 * lane.val)).getLsbD i = (decide (lane.val = i / 8) && w.getLsbD i) := by
  have hlane : lane.val = i / 8 ↔ 8 * lane.val ≤ i ∧ i - 8 * lane.val < 8 := by omega
  by_cases hin : 8 * lane.val ≤ i
  · have hback : 8 * lane.val + (i - 8 * lane.val) = i := by omega
    simp [wordLane, hlane, hin, hi, hback]
  · simp [hlane, hin, Nat.lt_of_not_le hin]

/-- Settles O51: bit i of the word comes back from the one bus byte that carries lane i / 8, which some byte does since
the order is onto. -/
theorem busOrderKeepsTheWord : Obligations.BusOrderKeepsTheWord := by
  intro order horder w
  refine BitVec.eq_of_getLsbD_eq fun i hi => ?_
  obtain ⟨j, hj⟩ := horder.surjective ⟨i / 8, by omega⟩
  have hlane : (order j).val = i / 8 := congrArg Fin.val hj
  simp only [wordFromBus, busByte, BitVec.getLsbD_or, getLsbD_wordLane_shiftLeft w _ hi, ← Bool.and_or_distrib_right]
  match j, hlane with
  | 0, h | 1, h | 2, h | 3, h => simp [h]

end Sys2Proof.Machine
end

section
/-! R44, R46: the bytes of a packed stream, pixel by pixel. -/

namespace Sys2Proof.Machine

/-- R44: the two bytes of a packed value, high byte first, are the value. -/
theorem highByte_append_lowByte (v : Half) : (highByte v ++ lowByte v : Half) = v := by
  refine BitVec.eq_of_toNat_eq ((toNat_append_eq _ _).trans ?_)
  simp only [highByte, lowByte, BitVec.extractLsb'_toNat, Nat.shiftRight_eq_div_pow]
  omega

/-- R83: the bytes at offsets 2p and 2p + 1 of a packed stream are those of its pixel p. -/
theorem getElem?_packAll {ps : List Pixel} {p : Nat} {q : Pixel} (h : ps[p]? = some q) :
    (packAll ps)[2 * p]? = some (highByte (pack565 q.r q.g q.b)) ∧
      (packAll ps)[2 * p + 1]? = some (lowByte (pack565 q.r q.g q.b)) := by
  induction ps generalizing p with
  | nil => simp at h
  | cons q' ps ih =>
    cases p with
    | zero =>
      obtain rfl : q' = q := by simpa using h
      exact ⟨rfl, rfl⟩
    | succ p => exact ih (by simpa using h)

/-- R82: the mirrored frame has as many pixels as the frame. -/
theorem length_mirror {α : Type} (f : List α) (h : f.length = Config.framePixels) :
    (mirror f).length = Config.framePixels :=
  length_mirrorRows Config.frameH f (Nat.le_of_eq h.symm)

/-- Settles O13: the two bytes are the halves of the packed pixel, by `getElem?_packAll` on the mirrored frame. -/
theorem evenWordsArePackedPixels : Obligations.EvenWordsArePackedPixels := by
  intro f hf p hp
  have hp' : p < (mirror f).length := by rwa [length_mirror f hf]
  have hq : (mirror f)[p]? = some (mirror f)[p] := List.getElem?_eq_getElem hp'
  obtain ⟨hhi, hlo⟩ := getElem?_packAll hq
  exact ⟨_, _, _, hhi, hlo, hq, highByte_append_lowByte _⟩

end Sys2Proof.Machine
end

section
/-! R52, R154, R159: the order in which commands are taken, and the run of an obedient host through its commands. -/

namespace Sys2Proof.Machine

/-- R152: a reset leaves the host's queue of commands as it is. -/
@[simp] theorem hostReset_offers (ms : List HostMove) (s : State) : (hostReset ms s).offers = s.offers := by
  obtain ⟨vs, h, -⟩ := hostReset_frame ms s; rw [h]; rfl

/-- Settles O32, by the cases of a step: only a word taken in Idle, faulting or accepted, shortens the queue. -/
theorem commandsAreTakenInArrivalOrder : Obligations.CommandsAreTakenInArrivalOrder := by
  intro s t hstep hne
  cases stepCase_of_next hstep with
  | waits | held | nothingOffered | takenIdle | emitted | statusRead => exact absurd rfl hne
  | faulted es o os c hs hp ho | accepted es o os i hs hp ho => exact ⟨hp, o, es, hs, ho⟩
  | resetTo => exact absurd (hostReset_offers _ _) hne

/-- R158: a take in Emit, where RESP has a byte at POS, emits that byte. -/
theorem step_of_take {s : State} {b : Byte} {es : List Event} (hs : s.schedule = .move .take :: es)
    (hp : s.phase = .emit) (hk : s.pos.toNat < s.rlen.toNat) (hb : s.resp.read s.pos.toNat = some b) :
    step s = .next (emitByte b { s with schedule := es }) := by
  have hcur : currentByte { s with schedule := es } = some b := (if_pos hk).trans hb
  rw [step_cons hs]
  exact hostTake_emit hp hcur

/-- R43, R86, R155: from Emit, as many takes as RESP has bytes left emit exactly those bytes, each with its flags, and
end in Idle with POS = RLEN. -/
theorem run_takes (b : Byte) (bs : List Byte) {s : State} {rest : List Event} (hp : s.phase = .emit)
    (hs : s.schedule = List.replicate (b :: bs).length (.move .take) ++ rest)
    (hlen : s.pos.toNat + (b :: bs).length = s.rlen.toNat)
    (hread : ∀ k, k < (b :: bs).length → s.resp.read (s.pos.toNat + k) = (b :: bs)[k]?) :
    core.run (b :: bs).length s = .next { s with
      schedule := rest
      emitted := (flagged s.rlen.toNat s.pos.toNat (b :: bs)).reverse ++ s.emitted
      pos := s.rlen
      phase := .idle } := by
  induction bs generalizing b s with
  | nil =>
    have hk : s.pos.toNat < s.rlen.toNat := Nat.lt_of_succ_le hlen.le
    have hlast : s.pos + 1#17 = s.rlen := (pos_succ_eq_rlen hk).mpr hlen
    rw [List.length_singleton, run_succ_of_next 0 (step_of_take hs hp hk (hread 0 Nat.one_pos))]
    simp [emitByte, hlast, flagged, lastInBurst, lastInResponse]
  | cons b' bs ih =>
    simp only [List.length_cons] at hlen hread ih
    have hk : s.pos.toNat < s.rlen.toNat := by omega
    have hpos : (s.pos + 1#17).toNat = s.pos.toNat + 1 := pos_succ_toNat hk
    have hnotLast : s.pos + 1#17 ≠ s.rlen := fun h => by have := (pos_succ_eq_rlen hk).mp h; omega
    rw [List.length_cons, run_succ_of_next _ (step_of_take hs hp hk (hread 0 (Nat.succ_pos _)))]
    refine (ih b' (by simp [hnotLast, hp]) rfl (by simp [hpos]; omega) fun k hk' => ?_).trans ?_
    · have hnext := hread (k + 1) (by omega)
      simpa [hpos, Nat.add_assoc, Nat.add_comm 1] using hnext
    · simp [emitByte, hpos, flagged, lastInBurst, lastInResponse]

/-- The flags leave the bytes as they are. -/
theorem map_byte_flagged (rlen k : Nat) (bs : List Byte) : (flagged rlen k bs).map OutByte.byte = bs := by
  induction bs generalizing k with
  | nil => rfl
  | cons b bs ih => exact congrArg (b :: ·) (ih (k + 1))

/-- R158: an offered command with the prescribed payload begins its response. -/
theorem step_of_command {s : State} {es : List Event} {o : Offer} {os : List Offer} {i : Instr}
    (hs : s.schedule = .move .offer :: es) (hp : s.phase = .idle) (ho : s.offers = o :: os)
    (hd : decode o.word = .command i) (hw : o.payload.wellFormed i = true) :
    step s = .next (beginResponse (responseOf i o.payload) (BitVec.ofNat 17 (responseLength i))
      { s with schedule := es, offers := os }) := by
  rw [step_offer_idle hs hp ho, acceptOffer, hd]
  exact exec_latch_of_wellFormed hw _

/-- R84, R85, R111 with R155: from Idle, an offered command and a take for each byte of its response emit the response,
each byte with its flags, and end in Idle with POS = RLEN and the next command on the port. -/
theorem run_command {s : State} {o : Offer} {os : List Offer} {i : Instr} {rest : List Event}
    (hp : s.phase = .idle) (ho : s.offers = o :: os) (hd : decode o.word = .command i)
    (hw : o.payload.wellFormed i = true)
    (hs : s.schedule = .move .offer :: (List.replicate (responseLength i) (.move .take) ++ rest)) :
    core.run (responseLength i + 1) s = .next
      { beginResponse (responseOf i o.payload) (BitVec.ofNat 17 (responseLength i)) s with
        offers := os
        schedule := rest
        emitted := (flagged (responseLength i) 0 (responseOf i o.payload)).reverse ++ s.emitted
        pos := BitVec.ofNat 17 (responseLength i)
        phase := .idle } := by
  have hlen : (responseOf i o.payload).length = responseLength i := length_responseOf i o.payload hw
  have hpos : 0 < (responseOf i o.payload).length := hlen ▸ (responseLength_bounds i).1
  rw [run_succ_of_next _ (step_of_command hs hp ho hd hw)]
  obtain ⟨b, bs, hbs⟩ := List.exists_cons_of_length_pos hpos
  rw [hbs] at hlen ⊢
  nth_rw 1 [← hlen]
  refine (run_takes b bs rfl (by rw [hlen]; rfl) ?_ fun k _ => ?_).trans ?_
  · simp only [beginResponse_pos, beginResponse_rlen, toNat_responseLength, BitVec.toNat_zero, hlen, Nat.zero_add]
  · simp
  · simp only [beginResponse_pos, beginResponse_rlen, toNat_responseLength, BitVec.toNat_zero]
    rfl

/-- R52, R132, R133: an obedient host's eager moves for its oldest command get that command taken and put out its
response, none where the word faults, and the block is Idle again. -/
theorem run_eagerMoves {s : State} {o : Offer} {os : List Offer} {rest : List Event} (hp : s.phase = .idle)
    (ho : s.offers = o :: os) (hs : s.schedule = eagerMoves o ++ rest)
    (hobeys : ∀ i, decode o.word = .command i → o.payload.wellFormed i = true) :
    ∃ t, core.run (eagerMoves o).length s = .next t ∧ t.output = s.output ++ responseOfOffer o ∧
      t.phase = .idle ∧ t.offers = os ∧ t.schedule = rest := by
  cases hd : decode o.word with
  | fault c =>
    have hnone : responseOfOffer o = [] := by simp [responseOfOffer, hd]
    simp only [eagerMoves, hnone, List.length_nil, List.replicate_zero, List.cons_append, List.nil_append] at hs ⊢
    refine ⟨_, run_succ_of_next 0 (step_of_faultWord hs hp ho hd), ?_, hp, rfl, rfl⟩
    exact (List.append_nil _).symm
  | command i =>
    have hresponse : responseOfOffer o = responseOf i o.payload := by simp [responseOfOffer, hd]
    have hlen : (responseOf i o.payload).length = responseLength i := length_responseOf i o.payload (hobeys i hd)
    simp only [eagerMoves, hresponse, hlen, List.length_cons, List.length_replicate] at hs ⊢
    refine ⟨_, run_command hp ho hd (hobeys i hd) hs, ?_, rfl, rfl, rfl⟩
    simp [State.output, map_byte_flagged]

/-- R52, R159: the claim of O46 without the invariant, which the proof does not need. -/
theorem run_flatMap_eagerMoves (os : List Offer) {s : State} (hp : s.phase = .idle) (ho : s.offers = os)
    (hobeys : HostObeys s) (hs : s.schedule = os.flatMap eagerMoves) :
    ∃ t, core.run (os.flatMap eagerMoves).length s = .next t ∧ t.ended ∧
      t.output = s.output ++ os.flatMap responseOfOffer := by
  induction os generalizing s with
  | nil => exact ⟨s, rfl, ⟨ho, hp⟩, (List.append_nil _).symm⟩
  | cons o os ih =>
    obtain ⟨u, hrun, houtput, hidle, hoffers, hrest⟩ := run_eagerMoves hp ho hs (hobeys o (by simp [ho]))
    have hobeysU : HostObeys u := fun o' ho' => hobeys o' (by simp [ho, ← hoffers, ho'])
    obtain ⟨t, hrun', hended, houtput'⟩ := ih hidle hoffers hobeysU hrest
    refine ⟨t, ?_, hended, ?_⟩
    · rw [List.flatMap_cons, List.length_append, run_add _ _ hrun, hrun']
    · rw [houtput', houtput, List.flatMap_cons, List.append_assoc]

/-- Settles O46, by induction over the commands with the run of one command as its step. -/
theorem programOutputIsTheResponsesInOrder : Obligations.ProgramOutputIsTheResponsesInOrder := by
  intro s _ hp hobeys hs
  rw [hs]
  exact run_flatMap_eagerMoves s.offers hp rfl hobeys hs

end Sys2Proof.Machine
end

section
/-! R62 to R66: the decoder in the numbers of the word, and its round trips with the encoder. -/

namespace Sys2Proof.Machine

/-- R66: OP = 0x01 is PACK565, with R, G and B from the three bytes above. -/
theorem decode_of_op_pack565 {w : Word} (h : w.toNat % 256 = 0x01) :
    decode w = .command (.pack565 (BitVec.ofNat 8 (w.toNat / 2 ^ 24)) (BitVec.ofNat 8 (w.toNat / 2 ^ 16))
      (BitVec.ofNat 8 (w.toNat / 2 ^ 8))) := by
  have hop : opField w = 0x01#8 := (opField_eq_iff w 0x01 (by decide)).mpr h
  rw [decode, if_pos hop, redField, greenField, blueField]
  simp only [extractLsb'_eq_ofNat]

/-- R63: the reserved bits are zeros exactly when the number above OP is 0. -/
theorem upperField_eq_zero_iff (w : Word) : upperField w = 0#24 ↔ w.toNat / 256 = 0 := by
  have hw : w.toNat < 2 ^ 32 := w.isLt
  rw [← BitVec.toNat_inj, upperField, extractLsb'_eq_ofNat, BitVec.toNat_ofNat, BitVec.toNat_zero]
  omega

/-- R66: OP = 0x02 is FENC where nothing stands above it, and a fault where something does. -/
theorem decode_of_op_fenc {w : Word} (h : w.toNat % 256 = 0x02) :
    decode w = if w.toNat / 256 ≠ 0 then .fault .reservedNonzero else .command .fenc := by
  have hop : opField w = 0x02#8 := (opField_eq_iff w 0x02 (by decide)).mpr h
  rw [decode, hop, if_neg (by decide), if_pos rfl, ite_not]
  simp only [upperField_eq_zero_iff]

/-- R66: OP = 0x03 is TENC, with N from the bits above. -/
theorem decode_of_op_tenc {w : Word} (h : w.toNat % 256 = 0x03) :
    decode w = .command (.tenc (BitVec.ofNat 24 (w.toNat / 256))) := by
  have hop : opField w = 0x03#8 := (opField_eq_iff w 0x03 (by decide)).mpr h
  rw [decode, hop, if_neg (by decide), if_neg (by decide), if_pos rfl, upperField, extractLsb'_eq_ofNat]
  rfl

/-- R66, R67: every other OP is illegal. -/
theorem decode_of_op_illegal {w : Word} (h : w.toNat % 256 = 0x00 ∨ 0x04 ≤ w.toNat % 256) :
    decode w = .fault .illegalOp := by
  have hp : opField w ≠ 0x01#8 := mt (opField_eq_iff w 0x01 (by decide)).mp (by omega)
  have hf : opField w ≠ 0x02#8 := mt (opField_eq_iff w 0x02 (by decide)).mp (by omega)
  have ht : opField w ≠ 0x03#8 := mt (opField_eq_iff w 0x03 (by decide)).mp (by omega)
  rw [decode, if_neg hp, if_neg hf, if_neg ht]

/-- Settles O1, clause by clause. -/
theorem decodeFollowsOpcodeMap : Obligations.DecodeFollowsOpcodeMap :=
  ⟨fun _ => ⟨decode_of_op_pack565, decode_of_op_fenc, decode_of_op_tenc, decode_of_op_illegal⟩, rfl, rfl⟩

/-- Settles O2: the number of each command's word gives OP, and with it each field as a quotient. -/
theorem decodeOfEncodeIsIdentity : Obligations.DecodeOfEncodeIsIdentity := by
  intro i
  cases i with
  | pack565 r g b =>
    have hr := r.isLt
    have hg := g.isLt
    have hb := b.isLt
    have hw := toNat_encode_pack565 r g b
    have hred : BitVec.ofNat 8 ((encode (.pack565 r g b)).toNat / 2 ^ 24) = r :=
      BitVec.eq_of_toNat_eq (by rw [BitVec.toNat_ofNat, hw]; omega)
    have hgreen : BitVec.ofNat 8 ((encode (.pack565 r g b)).toNat / 2 ^ 16) = g :=
      BitVec.eq_of_toNat_eq (by rw [BitVec.toNat_ofNat, hw]; omega)
    have hblue : BitVec.ofNat 8 ((encode (.pack565 r g b)).toNat / 2 ^ 8) = b :=
      BitVec.eq_of_toNat_eq (by rw [BitVec.toNat_ofNat, hw]; omega)
    rw [decode_of_op_pack565 (by omega), hred, hgreen, hblue]
  | fenc => exact decode_of_op_fenc (w := 0x00000002#32) rfl
  | tenc n =>
    have hn := n.isLt
    have hw := toNat_encode_tenc n
    have hlen : BitVec.ofNat 24 ((encode (.tenc n)).toNat / 256) = n :=
      BitVec.eq_of_toNat_eq (by rw [BitVec.toNat_ofNat, hw]; omega)
    rw [decode_of_op_tenc (by omega), hlen]

/-- R62: the three bytes above OP = 0x01 and OP itself make up the word. -/
theorem encode_pack565_of_op {w : Word} (h : w.toNat % 256 = 0x01) :
    encode (.pack565 (BitVec.ofNat 8 (w.toNat / 2 ^ 24)) (BitVec.ofNat 8 (w.toNat / 2 ^ 16))
      (BitVec.ofNat 8 (w.toNat / 2 ^ 8))) = w := by
  have hw : w.toNat < 2 ^ 32 := w.isLt
  refine BitVec.eq_of_toNat_eq ?_
  rw [toNat_encode_pack565]
  simp only [BitVec.toNat_ofNat]
  omega

/-- R64: N above OP = 0x03 and OP itself make up the word. -/
theorem encode_tenc_of_op {w : Word} (h : w.toNat % 256 = 0x03) :
    encode (.tenc (BitVec.ofNat 24 (w.toNat / 256))) = w := by
  have hw : w.toNat < 2 ^ 32 := w.isLt
  refine BitVec.eq_of_toNat_eq ?_
  rw [toNat_encode_tenc, BitVec.toNat_ofNat]
  omega

/-- R63: OP = 0x02 with nothing above it is the one FENC word. -/
theorem encode_fenc_of_op {w : Word} (h : w.toNat % 256 = 0x02) (hzero : w.toNat / 256 = 0) : encode .fenc = w := by
  refine BitVec.eq_of_toNat_eq ?_
  rw [encode, BitVec.toNat_ofNat]
  omega

/-- Settles O3, by the clauses of the opcode map. -/
theorem encodeOfDecodeIsIdentity : Obligations.EncodeOfDecodeIsIdentity := by
  intro w i hd
  have hop : w.toNat % 256 = 0x01 ∨ w.toNat % 256 = 0x02 ∨ w.toNat % 256 = 0x03 ∨
      (w.toNat % 256 = 0x00 ∨ 0x04 ≤ w.toNat % 256) := by omega
  rcases hop with h | h | h | h
  · cases (decode_of_op_pack565 h).symm.trans hd
    exact encode_pack565_of_op h
  · rw [decode_of_op_fenc h] at hd
    split at hd
    case isTrue => cases hd
    case isFalse hzero =>
      cases hd
      exact encode_fenc_of_op h (not_ne_iff.mp hzero)
  · cases (decode_of_op_tenc h).symm.trans hd
    exact encode_tenc_of_op h
  · cases (decode_of_op_illegal h).symm.trans hd

/-- Settles O4, by running the decoder on the twelve words. -/
theorem specWordsDecodeRight : Obligations.SpecWordsDecodeRight := by
  unfold Obligations.SpecWordsDecodeRight
  decide

/-- Settles O22: `exec_latch` in its two cases. -/
theorem payloadShapeDecides : Obligations.PayloadShapeDecides := by
  intro i p s
  rw [exec_latch]
  cases p.wellFormed i <;> simp

end Sys2Proof.Machine
end

section
/-! R71, R72: what each line of a command program sends. -/

namespace Sys2Proof.Machine

/-- R71: the numbers that are bytes. -/
theorem asmByte_eq_some_iff {n : Nat} {b : Byte} : asmByte n = some b ↔ n = b.toNat := by
  have hb := b.isLt
  rw [asmByte]
  split
  case isTrue hn =>
    rw [Option.some_inj, ← BitVec.toNat_inj, BitVec.toNat_ofNat]
    omega
  case isFalse hn => simp; omega

/-- R71: a number up to 255 is a byte. -/
theorem asmByte_of_le {n : Nat} (h : n ≤ 255) : asmByte n = some (BitVec.ofNat 8 n) := if_pos h

/-- R71: a number above 255 is rejected. -/
theorem asmByte_of_gt {n : Nat} (h : 255 < n) : asmByte n = none := if_neg (Nat.not_le.mpr h)

/-- R71: the bytes of a text, written as numbers, are read back. -/
theorem asmBytes_map_toNat (bs : List Byte) : asmBytes (bs.map BitVec.toNat) = some bs := by
  induction bs with
  | nil => rfl
  | cons b bs ih => simp [asmBytes, asmByte_eq_some_iff.mpr rfl, ih]

/-- R71: a list that is accepted has a byte for each number. -/
theorem length_of_asmBytes {ns : List Nat} {bs : List Byte} (h : asmBytes ns = some bs) : bs.length = ns.length := by
  induction ns generalizing bs with
  | nil => cases h; rfl
  | cons n ns ih =>
    rw [asmBytes] at h
    split at h
    case h_1 b bs' _ hbs => cases h; simp [ih hbs]
    case h_2 => cases h

/-- R71: a list within the range of N is sent under its length. -/
theorem asmTenc_of_le {bytes : List Byte} (h : bytes.length ≤ 16777215) :
    asmTenc bytes = some
      { word := encode (.tenc (BitVec.ofNat 24 bytes.length)), payload := { pixels := [], text := bytes } } :=
  if_pos (Nat.lt_succ_of_le h)

/-- R71: a list above the range of N is rejected. -/
theorem asmTenc_of_gt {bytes : List Byte} (h : 16777215 < bytes.length) : asmTenc bytes = none :=
  if_neg (Nat.not_lt.mpr h)

/-- R71: a `pack565` line with the three channels in range. -/
theorem asmOffer_pack565 (utf8 : List Char → List Byte) (frames : List (List Char × List Pixel)) {r g b : Nat}
    (hr : r ≤ 255) (hg : g ≤ 255) (hb : b ≤ 255) :
    asmOffer utf8 frames (.pack565 r g b) = some
      { word := encode (.pack565 (BitVec.ofNat 8 r) (BitVec.ofNat 8 g) (BitVec.ofNat 8 b))
        payload := Payload.empty } := by
  simp only [asmOffer, asmByte_of_le hr, asmByte_of_le hg, asmByte_of_le hb]

/-- R71: a channel above 255 is rejected. -/
theorem asmOffer_pack565_of_gt (utf8 : List Char → List Byte) (frames : List (List Char × List Pixel)) {r g b : Nat}
    (h : 255 < r ∨ 255 < g ∨ 255 < b) : asmOffer utf8 frames (.pack565 r g b) = none := by
  rcases h with h | h | h <;> simp [asmOffer, asmByte_of_gt h]

/-- R71: a `tenc` line lists the bytes it sends. -/
theorem asmOffer_tenc_map_toNat (utf8 : List Char → List Byte) (frames : List (List Char × List Pixel))
    (bytes : List Byte) : asmOffer utf8 frames (.tenc (bytes.map BitVec.toNat)) = asmTenc bytes := by
  simp only [asmOffer, asmBytes_map_toNat]

/-- R71: a list of more than 16,777,215 numbers is rejected. -/
theorem asmOffer_tenc_of_gt (utf8 : List Char → List Byte) (frames : List (List Char × List Pixel)) {ns : List Nat}
    (h : 16777215 < ns.length) : asmOffer utf8 frames (.tenc ns) = none := by
  rw [asmOffer]
  split
  case h_1 bs hbs => exact asmTenc_of_gt (length_of_asmBytes hbs ▸ h)
  case h_2 => rfl

/-- R71: a `fenc` line sends the frame of its name. -/
theorem asmOffer_fenc (utf8 : List Char → List Byte) {frames : List (List Char × List Pixel)} {name : List Char}
    {f : List Pixel} (h : asmLookup name frames = some f) :
    asmOffer utf8 frames (.fenc name) =
      some { word := 0x00000002#32, payload := { pixels := f, text := [] } } := by
  simp only [asmOffer, h, encode]

/-- R71: a `.word` line sends its word as it stands. -/
theorem asmOffer_word (utf8 : List Char → List Byte) (frames : List (List Char × List Pixel)) (w : Word) :
    asmOffer utf8 frames (.word w.toNat) = some { word := w, payload := Payload.empty } := by
  rw [asmOffer, if_pos w.isLt, BitVec.ofNat_toNat, BitVec.setWidth_eq]

/-- R64, R71: the transfer of a list in range, in the numbers of its word. -/
theorem asmTenc_word {bytes : List Byte} (h : bytes.length ≤ 16777215) :
    ∃ o, asmTenc bytes = some o ∧ o.word.toNat = bytes.length * 2 ^ 8 + 0x03 ∧
      o.payload = { pixels := [], text := bytes } := by
  refine ⟨_, asmTenc_of_le h, ?_, rfl⟩
  rw [toNat_encode_tenc, BitVec.toNat_ofNat, Nat.mod_eq_of_lt (Nat.lt_succ_of_le h)]

/-- Settles O47, line by line. -/
theorem assemblerForms : Obligations.AssemblerForms := by
  intro utf8 frames
  refine ⟨fun r g b hr hg hb => ⟨_, asmOffer_pack565 utf8 frames hr hg hb, ?_, rfl⟩,
    fun r g b => asmOffer_pack565_of_gt utf8 frames, fun bytes h => ?_, fun ns => asmOffer_tenc_of_gt utf8 frames,
    fun text => (asmOffer_tenc_map_toNat utf8 frames (utf8 text)).symm, fun text h => asmTenc_word h,
    fun name f => asmOffer_fenc utf8, asmOffer_word utf8 frames⟩
  · rw [toNat_encode_pack565]
    simp only [BitVec.toNat_ofNat]
    omega
  · rw [asmOffer_tenc_map_toNat]
    exact asmTenc_word h

end Sys2Proof.Machine
end

section
/-! R71: the pixels of a `.frame` directive. -/

namespace Sys2Proof.Machine

/-- R41, R71: the channel of the pixel at row y and column x is the formula's value there, where it is a byte. -/
theorem asmChannel_eq_some_iff {c : AsmExpr} {y x : Nat} {v : Byte} (hx : x ≤ 239) :
    asmChannel c (240 * y + x) = some v ↔ c.eval y x = some v.toNat := by
  have hrow : (240 * y + x) / 240 = y := by omega
  have hcol : (240 * y + x) % 240 = x := by omega
  rw [asmChannel, hrow, hcol]
  cases c.eval y x with
  | none => simp
  | some n => simpa using asmByte_eq_some_iff

/-- R71: a pixel is its three channels. -/
theorem asmPixel_eq_some_iff {r g b : AsmExpr} {p : Nat} {q : Pixel} :
    asmPixel r g b p = some q ↔ asmChannel r p = some q.r ∧ asmChannel g p = some q.g ∧ asmChannel b p = some q.b := by
  obtain ⟨qr, qg, qb⟩ := q
  rw [asmPixel]
  cases asmChannel r p <;> cases asmChannel g p <;> cases asmChannel b p <;> simp

/-- R71: the pixel at row y and column x, in the values of the three formulas there. -/
theorem asmPixel_at_eq_some_iff {r g b : AsmExpr} {y x : Nat} {q : Pixel} (hx : x ≤ 239) :
    asmPixel r g b (240 * y + x) = some q ↔
      r.eval y x = some q.r.toNat ∧ g.eval y x = some q.g.toNat ∧ b.eval y x = some q.b.toNat := by
  simp only [asmPixel_eq_some_iff, asmChannel_eq_some_iff hx]

/-- R71: the n + 1 pixels from number p on are pixel p, and then the n pixels from p + 1 on. -/
theorem asmPixels_succ_eq_some_iff {r g b : AsmExpr} {n p : Nat} {f : List Pixel} :
    asmPixels r g b (n + 1) p = some f ↔
      ∃ q qs, asmPixel r g b p = some q ∧ asmPixels r g b n (p + 1) = some qs ∧ q :: qs = f := by
  rw [asmPixels]
  cases asmPixel r g b p <;> cases asmPixels r g b n (p + 1) <;> simp

/-- R71: the pixels that are listed are as many as asked for. -/
theorem length_of_asmPixels {r g b : AsmExpr} {n p : Nat} {f : List Pixel} (h : asmPixels r g b n p = some f) :
    f.length = n := by
  induction n generalizing p f with
  | zero => cases h; rfl
  | succ n ih =>
    obtain ⟨q, qs, -, hqs, rfl⟩ := asmPixels_succ_eq_some_iff.mp h
    exact congrArg Nat.succ (ih hqs)

/-- R71: each pixel stands at its number. -/
theorem getElem?_of_asmPixels {r g b : AsmExpr} {n p k : Nat} {f : List Pixel} (h : asmPixels r g b n p = some f)
    (hk : k < n) : f[k]? = asmPixel r g b (p + k) := by
  induction n generalizing p f k with
  | zero => exact absurd hk (Nat.not_lt_zero k)
  | succ n ih =>
    obtain ⟨q, qs, hq, hqs, rfl⟩ := asmPixels_succ_eq_some_iff.mp h
    cases k with
    | zero => exact hq.symm
    | succ k =>
      rw [List.getElem?_cons_succ, ih hqs (Nat.lt_of_succ_lt_succ hk), Nat.add_right_comm, Nat.add_assoc]

/-- R71: pixels that all have their channels in range are listed. -/
theorem exists_asmPixels {r g b : AsmExpr} {n p : Nat} (h : ∀ k, k < n → ∃ q, asmPixel r g b (p + k) = some q) :
    ∃ f, asmPixels r g b n p = some f := by
  induction n generalizing p with
  | zero => exact ⟨[], rfl⟩
  | succ n ih =>
    obtain ⟨q, hq⟩ := h 0 (Nat.succ_pos n)
    obtain ⟨qs, hqs⟩ := ih (p := p + 1) fun k hk => by
      simpa [Nat.add_assoc, Nat.add_comm 1] using h (k + 1) (Nat.succ_lt_succ hk)
    exact ⟨q :: qs, asmPixels_succ_eq_some_iff.mpr ⟨q, qs, hq, hqs, rfl⟩⟩

/-- R71: a directive gives 57,600 pixels. -/
theorem length_of_asmFrame {r g b : AsmExpr} {f : List Pixel} (h : asmFrame r g b = some f) : f.length = 57600 :=
  length_of_asmPixels h

/-- R71: the pixel a directive gives at row y and column x has the values of the three formulas there. -/
theorem getElem?_of_asmFrame {r g b : AsmExpr} {f : List Pixel} (h : asmFrame r g b = some f) {y x : Nat}
    (hy : y ≤ 239) (hx : x ≤ 239) :
    ∃ q, f[240 * y + x]? = some q ∧ r.eval y x = some q.r.toNat ∧ g.eval y x = some q.g.toNat ∧
      b.eval y x = some q.b.toNat := by
  have hk : 240 * y + x < 57600 := by omega
  have hin : 240 * y + x < f.length := (length_of_asmFrame h).symm ▸ hk
  have hq : f[240 * y + x]? = some f[240 * y + x] := List.getElem?_eq_getElem hin
  have hpixel : f[240 * y + x]? = asmPixel r g b (0 + (240 * y + x)) := getElem?_of_asmPixels h hk
  rw [hq, Nat.zero_add] at hpixel
  exact ⟨_, hq, (asmPixel_at_eq_some_iff hx).mp hpixel.symm⟩

/-- R71: formulas with all values up to 255 give a frame. -/
theorem exists_asmFrame_of_le {r g b : AsmExpr}
    (h : ∀ y x, y ≤ 239 → x ≤ 239 → ∃ u v w, r.eval y x = some u ∧ g.eval y x = some v ∧ b.eval y x = some w ∧
      u ≤ 255 ∧ v ≤ 255 ∧ w ≤ 255) : ∃ f, asmFrame r g b = some f := by
  refine exists_asmPixels fun k hk => ?_
  have hk : k < 57600 := hk
  obtain ⟨u, v, w, hr, hg, hb, hu, hv, hw⟩ := h (k / 240) (k % 240) (by omega) (by omega)
  have hnumber : 0 + k = 240 * (k / 240) + k % 240 := by omega
  have hbyte {n : Nat} (hn : n ≤ 255) : some n = some (BitVec.ofNat 8 n).toNat := by
    rw [BitVec.toNat_ofNat, Nat.mod_eq_of_lt (Nat.lt_succ_of_le hn)]
  rw [hnumber]
  exact ⟨⟨_, _, _⟩, (asmPixel_at_eq_some_iff (by omega)).mpr
    ⟨hr.trans (hbyte hu), hg.trans (hbyte hv), hb.trans (hbyte hw)⟩⟩

/-- R71: a value above 255 anywhere rejects the directive, since each pixel of a frame holds its values in bytes. -/
theorem asmFrame_eq_none_of_gt {r g b : AsmExpr} {y x n : Nat} (hy : y ≤ 239) (hx : x ≤ 239) (hn : 255 < n)
    (h : r.eval y x = some n ∨ g.eval y x = some n ∨ b.eval y x = some n) : asmFrame r g b = none := by
  refine Option.eq_none_iff_forall_not_mem.mpr fun f hf => ?_
  obtain ⟨q, -, hr, hg, hb⟩ := getElem?_of_asmFrame hf hy hx
  have hqr := q.r.isLt
  have hqg := q.g.isLt
  have hqb := q.b.isLt
  rw [hr, hg, hb] at h
  simp only [Option.some_inj] at h
  omega

end Sys2Proof.Machine
end

section
/-! R71: the written form of a program. -/

namespace Sys2Proof.Machine

/-- R71: any other mnemonic is no line. -/
theorem parseLine_eq_none_of_notMem {cmd : List Char} {rest : List AsmToken}
    (h : cmd ∉ [['p', 'a', 'c', 'k', '5', '6', '5'], ['f', 'e', 'n', 'c'], ['t', 'e', 'n', 'c'], ['t', 's', 't', 'r'],
      ['.', 'w', 'o', 'r', 'd'], ['.', 'f', 'r', 'a', 'm', 'e']]) :
    parseLine (.name cmd :: rest) = none := by
  simp only [List.mem_cons, List.not_mem_nil, or_false, not_or] at h
  obtain ⟨hpack565, hfenc, htenc, htstr, hword, hframe⟩ := h
  simp only [parseLine, if_neg hpack565, if_neg hfenc, if_neg htenc, if_neg htstr, if_neg hword, if_neg hframe]

/-- R71: of a text whose lines are read, every line is. -/
theorem exists_readLine_of_mem {cs : List Char} {lines : List (List Char)} {ls : List AsmLine} (hcs : cs ∈ lines)
    (h : readLines lines = some ls) : ∃ l, readLine cs = some l := by
  induction lines generalizing ls with
  | nil => cases hcs
  | cons cs' rest ih =>
    rw [readLines] at h
    split at h
    case h_1 l ls' hl hls =>
      rcases List.mem_cons.mp hcs with rfl | hcs
      · exact ⟨l, hl⟩
      · exact ih hcs hls
    case h_2 => cases h

/-- R71: a text with a line that cannot be read is rejected. -/
theorem assembleText_eq_none_of_mem {utf8 : List Char → List Byte} {cs : List Char} {lines : List (List Char)}
    (hcs : cs ∈ lines) (h : readLine cs = none) : assembleText utf8 lines = none := by
  cases hls : readLines lines with
  | none => simp only [assembleText, hls]
  | some ls =>
    obtain ⟨l, hl⟩ := exists_readLine_of_mem hcs hls
    cases hl.symm.trans h

end Sys2Proof.Machine
end

section
/-! R71: a program, line by line. -/

namespace Sys2Proof.Machine

section

variable {utf8 : List Char → List Byte} {frames : List (List Char × List Pixel)}

/-- R71: a directive that is accepted names its frame for the lines after it. -/
theorem assemble_frame_cons {name : List Char} {r g b : AsmExpr} {f : List Pixel} (h : asmFrame r g b = some f)
    (ls : List AsmLine) :
    assemble utf8 frames (.frame name r g b :: ls) = assemble utf8 ((name, f) :: frames) ls := by
  simp only [assemble, h]

/-- R71: a command line sends its transfer before those of the lines after it, and is rejected with them. -/
theorem assemble_command_cons {l : AsmLine} (hblank : l ≠ .blank) (hframe : ∀ name r g b, l ≠ .frame name r g b)
    (ls : List AsmLine) :
    assemble utf8 frames (l :: ls) =
      (asmOffer utf8 frames l).bind fun o => (assemble utf8 frames ls).map (o :: ·) := by
  rw [assemble]
  · cases asmOffer utf8 frames l <;> cases assemble utf8 frames ls <;> rfl
  · exact hblank
  · exact hframe

/-- R71: a program that is accepted begins with a blank line, a directive that gives a frame, or a command line that
sends its transfer. -/
theorem assemble_cons_cases {l : AsmLine} {ls : List AsmLine} {os : List Offer}
    (h : assemble utf8 frames (l :: ls) = some os) :
    (l = .blank ∧ assemble utf8 frames ls = some os) ∨
    (∃ name r g b f, l = .frame name r g b ∧ asmFrame r g b = some f ∧
      assemble utf8 ((name, f) :: frames) ls = some os) ∨
    (∃ o os', asmOffer utf8 frames l = some o ∧ assemble utf8 frames ls = some os' ∧ os = o :: os') := by
  cases l with
  | blank => exact .inl ⟨rfl, h⟩
  | frame name r g b =>
    cases hf : asmFrame r g b with
    | none => simp [assemble, hf] at h
    | some f => exact .inr (.inl ⟨name, r, g, b, f, rfl, hf, assemble_frame_cons hf ls ▸ h⟩)
  | pack565 | fenc | tenc | tstr | word =>
    rw [assemble_command_cons] at h
    · obtain ⟨o, ho, hmap⟩ := Option.bind_eq_some_iff.mp h
      obtain ⟨os', hos, hcons⟩ := Option.map_eq_some_iff.mp hmap
      exact .inr (.inr ⟨o, os', ho, hos, hcons.symm⟩)
    · exact nofun
    · exact nofun

/-- R71: of a program that is accepted, every line is. -/
theorem lineCases_of_mem {l : AsmLine} {lines : List AsmLine} {os : List Offer} (hl : l ∈ lines)
    (h : assemble utf8 frames lines = some os) :
    l = .blank ∨ (∃ name r g b f, l = .frame name r g b ∧ asmFrame r g b = some f) ∨
      ∃ named o, asmOffer utf8 named l = some o := by
  induction lines generalizing frames os with
  | nil => cases hl
  | cons l' ls ih =>
    rcases List.mem_cons.mp hl with rfl | hl
    · rcases assemble_cons_cases h with ⟨hblank, -⟩ | ⟨name, r, g, b, f, hline, hf, -⟩ | ⟨o, os', ho, -, -⟩
      · exact .inl hblank
      · exact .inr (.inl ⟨name, r, g, b, f, hline, hf⟩)
      · exact .inr (.inr ⟨frames, o, ho⟩)
    · rcases assemble_cons_cases h with ⟨-, hls⟩ | ⟨_, _, _, _, _, -, -, hls⟩ | ⟨_, _, -, hls, -⟩ <;>
        exact ih hl hls

/-- R71: a program with a command line that is rejected whatever frames are named is rejected. -/
theorem assemble_eq_none_of_command {l : AsmLine} {lines : List AsmLine} (hl : l ∈ lines) (hblank : l ≠ .blank)
    (hframe : ∀ name r g b, l ≠ .frame name r g b) (h : ∀ named, asmOffer utf8 named l = none) :
    assemble utf8 frames lines = none := by
  refine Option.eq_none_iff_forall_not_mem.mpr fun os hos => ?_
  rcases lineCases_of_mem hl hos with hb | ⟨name, r, g, b, _, hf, -⟩ | ⟨named, o, ho⟩
  · exact hblank hb
  · exact hframe name r g b hf
  · cases ho.symm.trans (h named)

/-- R71: a program with a directive that gives no frame is rejected. -/
theorem assemble_eq_none_of_frame {lines : List AsmLine} {name : List Char} {r g b : AsmExpr}
    (hl : AsmLine.frame name r g b ∈ lines) (h : asmFrame r g b = none) : assemble utf8 frames lines = none := by
  refine Option.eq_none_iff_forall_not_mem.mpr fun os hos => ?_
  rcases lineCases_of_mem hl hos with hb | ⟨_, _, _, _, _, hline, hf⟩ | ⟨_, _, ho⟩
  · cases hb
  · cases hline
    cases hf.symm.trans h
  · cases ho

/-- R71: the frame a name stands for is one of those named so far. -/
theorem mem_of_asmLookup {name : List Char} {f : List Pixel} (h : asmLookup name frames = some f) :
    (name, f) ∈ frames := by
  induction frames with
  | nil => cases h
  | cons named rest ih =>
    rw [asmLookup] at h
    split at h
    case isTrue hname => cases h; exact hname ▸ List.mem_cons_self
    case isFalse => exact List.mem_cons_of_mem _ (ih h)

/-- R64, R71: a list of bytes that is accepted is sent as TENC of exactly those bytes. -/
theorem decode_of_asmTenc {bytes : List Byte} {o : Offer} (h : asmTenc bytes = some o) :
    ∃ i, decode o.word = .command i ∧ o.payload.wellFormed i = true := by
  rcases Nat.lt_or_ge 16777215 bytes.length with hgt | hle
  · cases (asmTenc_of_gt hgt).symm.trans h
  · cases (asmTenc_of_le hle).symm.trans h
    refine ⟨_, decodeOfEncodeIsIdentity _, ?_⟩
    simp [Payload.wellFormed, Nat.mod_eq_of_lt (Nat.lt_succ_of_le hle)]

/-- R60, R71: with frames of 57,600 pixels, a line other than `.word` sends the word of a command with the payload that
command prescribes. -/
theorem decode_of_asmOffer {l : AsmLine} {o : Offer} (hword : ∀ w, l ≠ .word w)
    (hframes : ∀ named ∈ frames, named.2.length = 57600) (h : asmOffer utf8 frames l = some o) :
    ∃ i, decode o.word = .command i ∧ o.payload.wellFormed i = true := by
  cases l with
  | blank | frame => cases h
  | word w => exact absurd rfl (hword w)
  | pack565 r g b =>
    rw [asmOffer] at h
    split at h
    case h_1 => cases h; exact ⟨_, decodeOfEncodeIsIdentity _, rfl⟩
    case h_2 => cases h
  | fenc name =>
    cases hf : asmLookup name frames with
    | none => simp [asmOffer, hf] at h
    | some f =>
      have hlength : f.length = 57600 := hframes _ (mem_of_asmLookup hf)
      cases (asmOffer_fenc utf8 hf).symm.trans h
      exact ⟨.fenc, decodeOfEncodeIsIdentity .fenc, by simp [Payload.wellFormed, hlength]⟩
  | tenc ns =>
    cases hbs : asmBytes ns with
    | none => simp [asmOffer, hbs] at h
    | some bs => exact decode_of_asmTenc (by simpa only [asmOffer, hbs] using h)
  | tstr text => exact decode_of_asmTenc h

/-- R71, R146: the claim of O50 under any frames named before, each of 57,600 pixels; a directive names another. -/
theorem assemble_obeysHostDuty {lines : List AsmLine} {offers : List Offer} (hword : ∀ w, AsmLine.word w ∉ lines)
    (hframes : ∀ named ∈ frames, named.2.length = 57600) (h : assemble utf8 frames lines = some offers) :
    ∀ o ∈ offers, ∃ i, decode o.word = .command i ∧ o.payload.wellFormed i = true := by
  induction lines generalizing frames offers with
  | nil => cases h; simp
  | cons l ls ih =>
    have hwordLs : ∀ w, AsmLine.word w ∉ ls := fun w hw => hword w (List.mem_cons_of_mem l hw)
    rcases assemble_cons_cases h with ⟨-, hls⟩ | ⟨name, r, g, b, f, -, hf, hls⟩ | ⟨o, os, ho, hls, rfl⟩
    · exact ih hwordLs hframes hls
    · exact ih hwordLs (List.forall_mem_cons.mpr ⟨length_of_asmFrame hf, hframes⟩) hls
    · have hwordL : ∀ w, l ≠ .word w := fun w hw => hword w (hw ▸ List.mem_cons_self)
      exact List.forall_mem_cons.mpr ⟨decode_of_asmOffer hwordL hframes ho, ih hwordLs hframes hls⟩

end

/-- Settles O48: the pixels by `getElem?_of_asmFrame`, and the two lines one after the other. -/
theorem frameDirectiveListsItsPixels : Obligations.FrameDirectiveListsItsPixels := by
  refine ⟨fun r g b f hf => ⟨length_of_asmFrame hf, fun y x => getElem?_of_asmFrame hf,
      fun utf8 frames name lines => ?_⟩, fun r g b => exists_asmFrame_of_le, fun r g b y x n => asmFrame_eq_none_of_gt⟩
  have hlookup : asmLookup name ((name, f) :: frames) = some f := if_pos rfl
  rw [assemble_frame_cons hf, assemble_command_cons (l := .fenc name) nofun nofun, asmOffer_fenc utf8 hlookup,
    Option.bind_some]

/-- Settles O49: each kind of line that must be rejected, by the lemma that rejects the whole text or program. -/
theorem assemblerRejects : Obligations.AssemblerRejects := by
  refine ⟨fun cs cmd rest hlex hcmd => ?_, fun utf8 lines cs => assembleText_eq_none_of_mem,
    fun utf8 frames lines r g b hl hgt => ?_, fun utf8 frames lines ns hl hgt => ?_,
    fun utf8 frames lines name r g b => assemble_eq_none_of_frame⟩
  · simp only [readLine, hlex, parseLine_eq_none_of_notMem hcmd]
  · exact assemble_eq_none_of_command hl nofun nofun fun named => asmOffer_pack565_of_gt utf8 named hgt
  · exact assemble_eq_none_of_command hl nofun nofun fun named => asmOffer_tenc_of_gt utf8 named hgt

/-- Settles O50: no frame is named before a program begins. -/
theorem assembledOffersObeyTheHostDuty : Obligations.AssembledOffersObeyTheHostDuty :=
  fun _ _ _ hword => assemble_obeysHostDuty hword (by simp)

end Sys2Proof.Machine
end

section
/-! R80, R81, R89 to R92: the pixel pack in numbers, its inverse images and its two unpacks. -/

namespace Sys2Proof.Machine

/-- A mask of `width` ones from bit `lo` on keeps that field of a number in its place. -/
theorem and_mask_eq (n lo width : Nat) :
    n &&& (2 ^ width - 1) <<< lo = n / 2 ^ lo % 2 ^ width * 2 ^ lo := by
  refine Nat.eq_of_testBit_eq fun i => ?_
  rw [← Nat.shiftLeft_eq]
  simp only [Nat.testBit_and, Nat.testBit_shiftLeft, Nat.testBit_two_pow_sub_one, Nat.testBit_mod_two_pow,
    Nat.testBit_div_two_pow]
  by_cases hi : lo ≤ i
  · simp [hi, Bool.and_comm]
  · simp [hi]

/-- R81: the first term of the source's formula is R[7:3] in bits 15:11. -/
theorem redTerm_eq (r : Byte) : (r.toNat &&& 0xF8) <<< 8 = r.toNat / 8 * 2 ^ 11 := by
  have hr := r.isLt
  rw [Nat.shiftLeft_eq, show r.toNat &&& 0xF8 = r.toNat / 2 ^ 3 % 2 ^ 5 * 2 ^ 3 from and_mask_eq r.toNat 3 5]
  omega

/-- R81: the second term is G[7:2] in bits 10:5. -/
theorem greenTerm_eq (g : Byte) : (g.toNat &&& 0xFC) <<< 3 = g.toNat / 4 * 2 ^ 5 := by
  have hg := g.isLt
  rw [Nat.shiftLeft_eq, show g.toNat &&& 0xFC = g.toNat / 2 ^ 2 % 2 ^ 6 * 2 ^ 2 from and_mask_eq g.toNat 2 6]
  omega

/-- R81: the third term is B[7:3] in bits 4:0. -/
theorem blueTerm_eq (b : Byte) : b.toNat >>> 3 = b.toNat / 8 := Nat.shiftRight_eq_div_pow b.toNat 3

/-- R81: the three terms of the source's formula occupy disjoint bits. -/
theorem sourceFormula_eq_sum (r g b : Byte) :
    ((r.toNat &&& 0xF8) <<< 8) ||| ((g.toNat &&& 0xFC) <<< 3) ||| (b.toNat >>> 3) =
      ((r.toNat &&& 0xF8) <<< 8) + ((g.toNat &&& 0xFC) <<< 3) + (b.toNat >>> 3) := by
  have hg := g.isLt
  have hb := b.isLt
  simp only [redTerm_eq, greenTerm_eq, blueTerm_eq, ← Nat.shiftLeft_eq]
  rw [Nat.lor_assoc, ← Nat.shiftLeft_add_eq_or_of_lt (i := 5) (by omega),
    ← Nat.shiftLeft_add_eq_or_of_lt (i := 11) (by rw [Nat.shiftLeft_eq]; omega), Nat.add_assoc]

/-- Settles O5: at 16 bits no shift of a masked byte loses a bit. -/
theorem packIsTheSourceFormula : Obligations.PackIsTheSourceFormula := by
  intro r g b
  have hred : (r.toNat &&& 0xF8) <<< 8 < 2 ^ 16 := by have := r.isLt; rw [redTerm_eq]; omega
  have hgreen : (g.toNat &&& 0xFC) <<< 3 < 2 ^ 16 := by have := g.isLt; rw [greenTerm_eq]; omega
  simp only [pack565, BitVec.toNat_or, BitVec.toNat_shiftLeft, BitVec.toNat_and, BitVec.toNat_ushiftRight,
    BitVec.toNat_setWidth_of_le (show 8 ≤ 16 by decide)]
  rw [show (0x00F8#16).toNat = 0xF8 from rfl, show (0x00FC#16).toNat = 0xFC from rfl, Nat.mod_eq_of_lt hred,
    Nat.mod_eq_of_lt hgreen]

/-- R81: the packed value in numbers, {R[7:3], G[7:2], B[7:3]}. -/
theorem toNat_pack565 (r g b : Byte) :
    (pack565 r g b).toNat = r.toNat / 8 * 2 ^ 11 + g.toNat / 4 * 2 ^ 5 + b.toNat / 8 := by
  rw [packIsTheSourceFormula, sourceFormula_eq_sum, redTerm_eq, greenTerm_eq, blueTerm_eq]

/-- R81: the packed value is the concatenation of the bits it keeps. -/
theorem pack565_eq_append (r g b : Byte) :
    pack565 r g b = r.extractLsb 7 3 ++ g.extractLsb 7 2 ++ b.extractLsb 7 3 := by
  have hr := r.isLt
  have hg := g.isLt
  have hb := b.isLt
  refine BitVec.eq_of_toNat_eq ?_
  rw [toNat_pack565]
  simp only [toNat_append_eq, BitVec.extractLsb_toNat, Nat.shiftRight_eq_div_pow]
  omega

/-- Settles O6, by the packed value in numbers. -/
theorem packedBitLayout : Obligations.PackedBitLayout := fun r g b =>
  ⟨pack565_eq_append r g b, (packIsTheSourceFormula r g b).trans (sourceFormula_eq_sum r g b)⟩

/-- R81: a pixel packs to v exactly when the bits it keeps are the fields of v. -/
theorem pack565_eq_iff (r g b : Byte) (v : Half) :
    pack565 r g b = v ↔
      r.toNat / 8 = v.toNat / 2 ^ 11 ∧ g.toNat / 4 = v.toNat / 2 ^ 5 % 2 ^ 6 ∧ b.toNat / 8 = v.toNat % 2 ^ 5 := by
  have hg := g.isLt
  have hb := b.isLt
  rw [← BitVec.toNat_inj, toNat_pack565]
  omega

/-- R81: the fields of a packed value are the bits kept of the channels. -/
theorem pack565_fields (r g b : Byte) :
    r.toNat / 8 = (pack565 r g b).toNat / 2 ^ 11 ∧ g.toNat / 4 = (pack565 r g b).toNat / 2 ^ 5 % 2 ^ 6 ∧
      b.toNat / 8 = (pack565 r g b).toNat % 2 ^ 5 :=
  (pack565_eq_iff r g b _).mp rfl

/-- R90: the channels of the zero-fill unpack in numbers. -/
theorem toNat_unpack565 (v : Half) :
    (unpack565 v).r.toNat = v.toNat / 2 ^ 11 * 8 ∧ (unpack565 v).g.toNat = v.toNat / 2 ^ 5 % 2 ^ 6 * 4 ∧
      (unpack565 v).b.toNat = v.toNat % 2 ^ 5 * 8 := by
  have hv := v.isLt
  simp only [unpack565, toNat_append_eq, BitVec.extractLsb'_toNat, Nat.shiftRight_eq_div_pow, BitVec.toNat_zero]
  omega

/-- R89: whatever stands below the kept bits of the channels, the pixel packs to v. -/
theorem pack565_append (v : Half) (r : BitVec 3) (g : BitVec 2) (b : BitVec 3) :
    pack565 (v.extractLsb' 11 5 ++ r : BitVec (5 + 3)) (v.extractLsb' 5 6 ++ g : BitVec (6 + 2))
      (v.extractLsb' 0 5 ++ b : BitVec (5 + 3)) = v := by
  have hv := v.isLt
  rw [pack565_eq_iff]
  simp only [toNat_append_eq, BitVec.extractLsb'_toNat, Nat.shiftRight_eq_div_pow]
  omega

/-- R89: the pixel that packs to v and whose dropped bits, those of R, G and B in order, are x. -/
def preimageOf (v : Half) (x : BitVec 8) : Pixel where
  r := v.extractLsb' 11 5 ++ x.extractLsb' 5 3
  g := v.extractLsb' 5 6 ++ x.extractLsb' 3 2
  b := v.extractLsb' 0 5 ++ x.extractLsb' 0 3

/-- R89: the channels of a preimage in numbers. -/
theorem toNat_preimageOf (v : Half) (x : BitVec 8) :
    (preimageOf v x).r.toNat = v.toNat / 2 ^ 11 * 8 + x.toNat / 2 ^ 5 ∧
      (preimageOf v x).g.toNat = v.toNat / 2 ^ 5 % 2 ^ 6 * 4 + x.toNat / 2 ^ 3 % 4 ∧
      (preimageOf v x).b.toNat = v.toNat % 2 ^ 5 * 8 + x.toNat % 8 := by
  have hv := v.isLt
  have hx := x.isLt
  simp only [preimageOf, toNat_append_eq, BitVec.extractLsb'_toNat, Nat.shiftRight_eq_div_pow]
  omega

/-- R89: the dropped bits can be read back from the pixel. -/
theorem preimageOf_injective (v : Half) : Function.Injective (preimageOf v) := by
  intro x y h
  obtain ⟨hxr, hxg, hxb⟩ := toNat_preimageOf v x
  obtain ⟨hyr, hyg, hyb⟩ := toNat_preimageOf v y
  rw [h] at hxr hxg hxb
  refine BitVec.eq_of_toNat_eq ?_
  omega

/-- R89: the dropped bits R[2:0], G[1:0], B[2:0] of a pixel. -/
def droppedBits (r g b : Byte) : BitVec 8 := r.extractLsb' 0 3 ++ g.extractLsb' 0 2 ++ b.extractLsb' 0 3

/-- R89: a pixel is the preimage of its packed value with its own dropped bits. -/
theorem preimageOf_droppedBits (r g b : Byte) : preimageOf (pack565 r g b) (droppedBits r g b) = ⟨r, g, b⟩ := by
  obtain ⟨hr, hg, hb⟩ := toNat_preimageOf (pack565 r g b) (droppedBits r g b)
  obtain ⟨hkr, hkg, hkb⟩ := pack565_fields r g b
  have hx : (droppedBits r g b).toNat = r.toNat % 8 * 2 ^ 5 + g.toNat % 4 * 2 ^ 3 + b.toNat % 8 := by
    simp only [droppedBits, toNat_append_eq, BitVec.extractLsb'_toNat, Nat.shiftRight_eq_div_pow]
    omega
  rw [Pixel.mk.injEq]
  exact ⟨BitVec.eq_of_toNat_eq (by omega), BitVec.eq_of_toNat_eq (by omega), BitVec.eq_of_toNat_eq (by omega)⟩

/-- Settles O9: either unpack keeps each field of v at the top of its channel, which is all the pack looks at. -/
theorem repackingIsExact : Obligations.RepackingIsExact := fun v =>
  ⟨pack565_append v _ _ _, pack565_append v _ _ _⟩

/-- R91: two pixels with one packed value agree in all but the dropped bits. -/
theorem abs_sub_le_of_pack565_eq {p q : Pixel} (h : pack565 q.r q.g q.b = pack565 p.r p.g p.b) :
    |(p.r.toNat : Int) - q.r.toNat| ≤ 7 ∧ |(p.g.toNat : Int) - q.g.toNat| ≤ 3 ∧
      |(p.b.toNat : Int) - q.b.toNat| ≤ 7 := by
  obtain ⟨hr, hg, hb⟩ := pack565_fields p.r p.g p.b
  obtain ⟨hr', hg', hb'⟩ := (pack565_eq_iff _ _ _ _).mp h
  simp only [abs_le]
  omega

/-- R91: the zero-fill unpack loses exactly the dropped bits. -/
theorem sub_unpack565 (r g b : Byte) :
    (r.toNat : Int) - (unpack565 (pack565 r g b)).r.toNat = (r.extractLsb 2 0).toNat ∧
      (g.toNat : Int) - (unpack565 (pack565 r g b)).g.toNat = (g.extractLsb 1 0).toNat ∧
      (b.toNat : Int) - (unpack565 (pack565 r g b)).b.toNat = (b.extractLsb 2 0).toNat := by
  obtain ⟨hr, hg, hb⟩ := toNat_unpack565 (pack565 r g b)
  obtain ⟨hkr, hkg, hkb⟩ := pack565_fields r g b
  simp only [BitVec.extractLsb_toNat, Nat.shiftRight_eq_div_pow]
  omega

/-- Settles O8: the bound under bit replication holds since it packs back to the same value; the pixel (7, 3, 7) reaches
the largest errors. -/
theorem unpackErrorBound : Obligations.UnpackErrorBound := by
  refine ⟨fun r g b => ?_, 7, 3, 7, by decide⟩
  obtain ⟨hr, hg, hb⟩ := sub_unpack565 r g b
  exact ⟨hr, hg, hb, abs_sub_le_of_pack565_eq (p := ⟨r, g, b⟩) (repackingIsExact (pack565 r g b)).2⟩

end Sys2Proof.Machine
end

section
/-! R82, R83, R88, R89: the mirrored and the serialized frame, pixel by pixel. -/

namespace Sys2Proof.Machine

/-- R82: pixel (y, x) of the mirrored rows is pixel (y, 239 − x) of the frame. -/
theorem getElem?_mirrorRows {α : Type} {rows y x : Nat} (f : List α) (h : 240 * rows ≤ f.length) (hy : y < rows)
    (hx : x ≤ 239) : (mirrorRows rows f)[240 * y + x]? = f[240 * y + (239 - x)]? := by
  induction rows generalizing f y with
  | zero => omega
  | succ rows ih =>
    have hrow : (f.take 240).length = 240 := by rw [List.length_take]; omega
    simp only [mirrorRows, Config.frameW]
    cases y with
    | zero =>
      rw [List.getElem?_append_left (by rw [List.length_reverse, hrow]; omega),
        List.getElem?_reverse (by omega), hrow, List.getElem?_take_of_lt (by omega)]
      congr 1
      omega
    | succ y =>
      have hrest : 240 * rows ≤ (f.drop 240).length := by rw [List.length_drop]; omega
      rw [List.getElem?_append_right (by rw [List.length_reverse, hrow]; omega), List.length_reverse, hrow,
        show 240 * (y + 1) + x - 240 = 240 * y + x by omega]
      refine (ih _ hrest (by omega)).trans ?_
      rw [List.getElem?_drop]
      congr 1
      omega

/-- R82: M(y, x) = F(y, 239 − x). -/
theorem getElem?_mirror {α : Type} {f : List α} (h : f.length = 57600) {y x : Nat} (hy : y ≤ 239)
    (hx : x ≤ 239) : (mirror f)[240 * y + x]? = f[240 * y + (239 - x)]? :=
  getElem?_mirrorRows f (Nat.le_of_eq h.symm) (Nat.lt_succ_of_le hy) hx

/-- R82: mirroring twice gives the frame back. -/
theorem mirror_mirror {α : Type} {f : List α} (h : f.length = 57600) : mirror (mirror f) = f := by
  have hm : (mirror f).length = 57600 := length_mirror f h
  have hmm : (mirror (mirror f)).length = 57600 := length_mirror _ hm
  refine List.ext_getElem? fun p => ?_
  rcases Nat.lt_or_ge p 57600 with hp | hp
  · have hsplit : p = 240 * (p / 240) + p % 240 := (Nat.div_add_mod p 240).symm
    have hy : p / 240 ≤ 239 := by omega
    rw [hsplit, getElem?_mirror hm hy (by omega), getElem?_mirror h hy (by omega)]
    congr 1
    omega
  · rw [List.getElem?_eq_none (by omega), List.getElem?_eq_none (by omega)]

/-- Settles O10, by the pixels of the mirrored frame. -/
theorem mirrorReversesColumns : Obligations.MirrorReversesColumns := fun f hf =>
  ⟨length_mirror f hf, fun _ _ => getElem?_mirror hf, mirror_mirror hf⟩

/-- R88: the mirror moves elements about whatever they are. -/
theorem mirrorRows_map {α β : Type} (g : α → β) (rows : Nat) (f : List α) :
    mirrorRows rows (f.map g) = (mirrorRows rows f).map g := by
  induction rows generalizing f with
  | zero => rfl
  | succ rows ih => simp only [mirrorRows, List.map_append, List.map_reverse, List.map_take, ← List.map_drop, ih]

/-- R88: so does the mirror of a frame. -/
theorem mirror_map {α β : Type} (g : α → β) (f : List α) : mirror (f.map g) = (mirror f).map g := by
  rw [mirror, mirrorRows_map, mirror]

/-- Settles O12: the pack is one of the maps the mirror commutes with. -/
theorem packCommutesWithMirror : Obligations.PackCommutesWithMirror := by
  intro f _
  rw [mirror_map]

/-- R93: the bytes of a packed list are those of its packed values. -/
theorem packAll_eq_flatMap (ps : List Pixel) :
    packAll ps = (ps.map fun p => pack565 p.r p.g p.b).flatMap bigEndian := by
  induction ps with
  | nil => rfl
  | cons p ps ih => rw [packAll, ih]; rfl

/-- R88: a FENC response is fixed by the packed values of the frame. -/
theorem serialize_congr {f g : List Pixel}
    (h : (f.map fun p => pack565 p.r p.g p.b) = g.map fun p => pack565 p.r p.g p.b) : serialize f = serialize g := by
  simp only [serialize, packAll_eq_flatMap, ← mirror_map, h]

/-- R89: two frames that differ in a bit the pack drops, with one stream. -/
theorem serialize_not_injective :
    ∃ f g : List Pixel, f.length = 57600 ∧ g.length = 57600 ∧ f ≠ g ∧ serialize f = serialize g := by
  refine ⟨List.replicate 57600 ⟨0, 0, 0⟩, List.replicate 57600 ⟨1, 0, 0⟩, List.length_replicate,
    List.length_replicate, ?_, serialize_congr ?_⟩
  · rw [Ne, List.replicate_right_inj (by decide)]
    decide
  · rw [List.map_replicate, List.map_replicate, show pack565 0 0 0 = pack565 1 0 0 by decide]

/-- Settles O7: a pixel packs to v exactly when it is the preimage with its own dropped bits. -/
theorem packHas256Preimages : Obligations.PackHas256Preimages := by
  refine ⟨fun v => ⟨preimageOf v, preimageOf_injective v, fun p => ⟨?_, ?_⟩⟩, fun p q hr hg hb => ?_,
    serialize_not_injective⟩
  · rintro rfl
    exact ⟨_, preimageOf_droppedBits p.r p.g p.b⟩
  · rintro ⟨x, rfl⟩
    exact pack565_append v _ _ _
  · rw [pack565_eq_append, pack565_eq_append, hr, hg, hb]

/-- R83: output pixel (y, x) stands at offset 480y + 2x, high byte first, and is the packed input pixel (y, 239 − x). -/
theorem getElem?_serialize {f : List Pixel} (h : f.length = 57600) {y x : Nat} (hy : y ≤ 239)
    (hx : x ≤ 239) :
    ∃ p, f[240 * y + (239 - x)]? = some p ∧
      (serialize f)[480 * y + 2 * x]? = some ((pack565 p.r p.g p.b).extractLsb 15 8) ∧
      (serialize f)[480 * y + 2 * x + 1]? = some ((pack565 p.r p.g p.b).extractLsb 7 0) := by
  have hin : 240 * y + (239 - x) < f.length := by rw [h]; omega
  have hp := List.getElem?_eq_getElem hin
  have hoffset : 480 * y + 2 * x = 2 * (240 * y + x) := by omega
  rw [hoffset]
  exact ⟨_, hp, getElem?_packAll ((getElem?_mirror h hy hx).trans hp)⟩

/-- R83: response byte k is the half k mod 2 of the packed input pixel (k div 480, 239 − (k mod 480) div 2). -/
theorem getElem?_serialize_byte {f : List Pixel} (h : f.length = 57600) {k : Nat}
    (hk : k < 115200) :
    ∃ p, f[240 * (k / 480) + (239 - (k % 480) / 2)]? = some p ∧
      (serialize f)[k]? = some (if k % 2 = 0 then (pack565 p.r p.g p.b).extractLsb 15 8
        else (pack565 p.r p.g p.b).extractLsb 7 0) := by
  obtain ⟨p, hp, hhi, hlo⟩ := getElem?_serialize h (y := k / 480) (x := k % 480 / 2) (by omega) (by omega)
  refine ⟨p, hp, ?_⟩
  by_cases hk2 : k % 2 = 0
  · rw [if_pos hk2, ← hhi]
    congr 1
    omega
  · rw [if_neg hk2, ← hlo]
    congr 1
    omega

/-- Settles O11, by the two offsets of each output pixel. -/
theorem serializationOrder : Obligations.SerializationOrder := fun f hf =>
  ⟨length_serialize f hf, fun _ _ => getElem?_serialize hf, fun _ => getElem?_serialize_byte hf⟩

end Sys2Proof.Machine
end

section
/-! R43, R86: the bursts of a response and the flag that marks their ends. -/

namespace Sys2Proof.Machine

/-- R86: the length of a burst of a FENC stream. -/
theorem length_burst {stream : List Byte} (h : stream.length = 115200) (b : Nat) :
    (burst b stream).length = min (1024 * (b + 1)) 115200 - 1024 * b := by
  simp [burst, h]

/-- R86: the bursts before burst n, in order, are the stream up to where burst n begins. -/
theorem flatMap_burst {stream : List Byte} {n : Nat} (hn : n ≤ 113) :
    (List.range n).flatMap (fun b => burst b stream) = stream.take (min (1024 * n) 115200) := by
  induction n with
  | zero => simp
  | succ n ih =>
    have hcut := List.take_append_drop (1024 * n) (stream.take (min (1024 * (n + 1)) 115200))
    rw [List.take_take, Nat.min_eq_left (by omega)] at hcut
    rw [List.range_succ, List.flatMap_append, List.flatMap_singleton, ih (by omega), Nat.min_eq_left (by omega)]
    exact hcut

/-- R43, R86: `last_in_burst` in numbers. -/
theorem lastInBurst_iff (rlen pos : Position) :
    lastInBurst rlen pos = true ↔
      (rlen.toNat = 115200 ∧ (pos.toNat + 1) % 1024 = 0) ∨ pos.toNat + 1 = rlen.toNat := by
  simp [lastInBurst, lastInResponse]

/-- R43, R86: the same of byte k of a response of `rlen` bytes. -/
theorem lastInBurst_ofNat_iff {rlen k : Nat} (hrlen : rlen < 2 ^ 17) (hk : k < rlen) :
    lastInBurst (BitVec.ofNat 17 rlen) (BitVec.ofNat 17 k) = true ↔
      (rlen = 115200 ∧ (k + 1) % 1024 = 0) ∨ k + 1 = rlen := by
  rw [lastInBurst_iff, BitVec.toNat_ofNat, BitVec.toNat_ofNat, Nat.mod_eq_of_lt hrlen,
    Nat.mod_eq_of_lt (Nat.lt_trans hk hrlen)]

/-- Settles O14: the bursts by where each begins and ends, the flag for each of the three response lengths. -/
theorem burstsPartitionTheStream : Obligations.BurstsPartitionTheStream := by
  refine ⟨fun stream h => ⟨fun b hb => ?_, length_burst h 112, ?_⟩,
    fun k hk => (lastInBurst_ofNat_iff (by decide) hk).trans (by omega),
    fun k hk => (lastInBurst_ofNat_iff (by decide) hk).trans (by omega),
    fun k hk => (lastInBurst_ofNat_iff (by decide) hk).trans (by omega)⟩
  · rw [length_burst h]
    omega
  · rw [flatMap_burst (Nat.le_refl 113), List.take_of_length_le (by omega)]

end Sys2Proof.Machine
end

section
/-! R84, R85, R22, R31: what the accept step of a command writes and what it leaves. -/

namespace Sys2Proof.Machine

/-- R22, R31: an accepted response writes RLEN, POS, PHASE, LAST_STATUS and RESP, empties the latches and leaves every
other field. -/
theorem acceptedFrom_beginResponse (i : Instr) (bs : List Byte) (s : State) :
    AcceptedFrom s (beginResponse bs (BitVec.ofNat 17 (responseLength i)) s) (responseLength i) where
  phase := rfl
  rlen := toNat_responseLength i
  pos := rfl
  lastStatus := rfl
  stickyFault := rfl
  latches := ⟨rfl, rfl⟩
  offers := rfl
  schedule := rfl
  emitted := rfl
  statusReads := rfl
  draws := rfl

/-- R84, R85, R111: a command whose prescribed payload is latched is accepted, with its response in RESP. -/
theorem exec_accepts {i : Instr} {s : State} (h : Payload.wellFormed i ⟨s.frameIn, s.textIn⟩ = true) :
    ∃ t, exec i s = .next t ∧ AcceptedFrom s t (responseLength i) ∧
      ∀ k, t.resp.read k = (responseOf i ⟨s.frameIn, s.textIn⟩)[k]? :=
  ⟨_, exec_latch_of_wellFormed h s, acceptedFrom_beginResponse i _ s, Memory.read_ofBytes _⟩

/-- R60: 57,600 pixels and no text are the payload of FENC. -/
theorem wellFormed_fenc {pixels : List Pixel} (h : pixels.length = 57600) :
    Payload.wellFormed .fenc ⟨pixels, []⟩ = true := by
  simp [Payload.wellFormed, h]

/-- R44, R22: the two bytes of a packed value, and no third. -/
theorem getElem?_bigEndian (v : Half) (k : Nat) :
    (bigEndian v)[k]? =
      if k = 0 then some (v.extractLsb 15 8) else if k = 1 then some (v.extractLsb 7 0) else none := by
  match k with
  | 0 | 1 | k + 2 => rfl

/-- Settles O19: an empty payload is what PACK565 prescribes. -/
theorem pack565IsAccepted : Obligations.Pack565IsAccepted := by
  intro r g b s hpixels htext
  have hw : Payload.wellFormed (.pack565 r g b) ⟨s.frameIn, s.textIn⟩ = true := by rw [hpixels, htext]; rfl
  obtain ⟨t, hexec, haccepted, hresp⟩ := exec_accepts hw
  exact ⟨t, hexec, haccepted, fun k => (hresp k).trans (getElem?_bigEndian _ k)⟩

/-- Settles O20: the response is the serialized frame, read byte by byte. -/
theorem fencIsAccepted : Obligations.FencIsAccepted := by
  intro s hpixels htext
  have hw : Payload.wellFormed .fenc ⟨s.frameIn, s.textIn⟩ = true := by rw [htext]; exact wellFormed_fenc hpixels
  obtain ⟨t, hexec, haccepted, hresp⟩ := exec_accepts hw
  refine ⟨t, hexec, haccepted, fun k hk => ?_, fun k hk => ?_⟩
  · rw [hresp]
    exact getElem?_serialize_byte hpixels hk
  · rw [hresp, List.getElem?_eq_none]
    exact (length_serialize s.frameIn hpixels).le.trans hk

/-- Settles O15: what RESIZE gives is a payload of FENC, so FENC is accepted with it and run to the end. -/
theorem frameContractForEveryResize : Obligations.FrameContractForEveryResize := by
  intro resize img s
  have hw : Payload.wellFormed .fenc ⟨(resize img).val, []⟩ = true := wellFormed_fenc (resize img).property
  refine ⟨length_serialize _ (resize img).property, ?_, fun os rest hp ho hs => ?_⟩
  · obtain ⟨t, hexec, haccepted, hresp⟩ :=
      exec_accepts (s := { s with frameIn := (resize img).val, textIn := [] }) hw
    exact ⟨t, hexec, haccepted.phase, haccepted.rlen, hresp⟩
  · refine ⟨_, run_command hp ho (decodeOfEncodeIsIdentity .fenc) hw hs, ?_, rfl, rfl, rfl⟩
    simp only [State.output, List.map_append, List.map_reverse, map_byte_flagged, List.reverse_append,
      List.reverse_reverse]
    rfl

end Sys2Proof.Machine
end

section
/-! R43, R87, R155, R160: the block stays busy until the last byte of a response is out. -/

namespace Sys2Proof.Machine

/-- R34: in Emit there is a byte to take. -/
theorem Inv.exists_currentByte {s : State} (h : Inv s) (hp : s.phase = .emit) :
    ∃ b, s.resp.read s.pos.toNat = some b :=
  Option.isSome_iff_exists.mp ((h.respCovers _).mpr (h.emitPos hp))

/-- R155: takes that do not reach the last byte leave the block in Emit with POS advanced by their number. -/
theorem run_takes_in_flight {n : Nat} {s : State} {rest : List Event} (h : Inv s) (hp : s.phase = .emit)
    (hs : s.schedule = List.replicate n (.move .take) ++ rest) (hn : s.pos.toNat + n < s.rlen.toNat) :
    ∃ t, core.run n s = .next t ∧ t.phase = .emit ∧ t.pos.toNat = s.pos.toNat + n ∧ t.lastStatus = s.lastStatus := by
  induction n generalizing s with
  | zero => exact ⟨s, rfl, hp, rfl, rfl⟩
  | succ n ih =>
    have hk : s.pos.toNat < s.rlen.toNat := h.emitPos hp
    obtain ⟨b, hb⟩ := h.exists_currentByte hp
    have hpos : (s.pos + 1#17).toNat = s.pos.toNat + 1 := pos_succ_toNat hk
    have hnotLast : s.pos + 1#17 ≠ s.rlen := fun hlast => by have := (pos_succ_eq_rlen hk).mp hlast; omega
    have hstep := step_of_take hs hp hk hb
    have hinv := everyStepKeepsTheInvariant s _ h hstep
    obtain ⟨t, hrun, hphase, hposT, hstatus⟩ :=
      ih hinv (by simp [hnotLast, hp]) rfl (by simp [hpos]; omega)
    refine ⟨t, (run_succ_of_next n hstep).trans hrun, hphase, ?_, hstatus⟩
    rw [hposT, emitByte_pos, hpos]
    omega

/-- Settles O29: the bytes and the end by `run_command`, BUSY before each take by the invariant of the accepted
response. -/
theorem commandEmitsItsWholeResponse : Obligations.CommandEmitsItsWholeResponse := by
  intro s o os i rest hp ho hd hw hs
  refine ⟨length_responseOf i o.payload hw, fun j hj => ?_, _, run_command hp ho hd hw hs, rfl, rfl,
    toNat_responseLength i, toNat_responseLength i, rfl, rfl, rfl, rfl, rfl⟩
  have hsplit : List.replicate (responseLength i) (Event.move .take) ++ rest =
      List.replicate j (.move .take) ++ (List.replicate (responseLength i - j) (.move .take) ++ rest) := by
    rw [← List.append_assoc, List.replicate_append_replicate, Nat.add_sub_cancel' hj.le]
  have hshort : (0#17).toNat + j < (BitVec.ofNat 17 (responseLength i)).toNat := by
    rwa [toNat_responseLength, BitVec.toNat_zero, Nat.zero_add]
  obtain ⟨u, hrun, hphase, hpos, hstatus⟩ :=
    run_takes_in_flight (inv_beginResponse hw { s with schedule := _, offers := os }) rfl hsplit hshort
  refine ⟨u, (run_succ_of_next j (step_of_command hs hp ho hd hw)).trans hrun, (status_bit0_iff u).mpr hphase, ?_,
    hstatus⟩
  rw [hpos, beginResponse_pos, BitVec.toNat_zero, Nat.zero_add]

end Sys2Proof.Machine
end

section
/-! R110 to R119: the fixed-width text codec. What fixed128 makes of a text, and TENC on any bytes. -/

namespace Sys2Proof.Machine

/-- R110, R117: cutting and padding in one formula. A text of full width gets no pad, a shorter one loses nothing. -/
theorem padTo_eq_take_append (width : Nat) (text : List Byte) :
    padTo width text = text.take width ++ List.replicate (width - text.length) 0x00#8 := by
  induction width generalizing text with
  | zero => simp [padTo]
  | succ width ih => cases text <;> simp [padTo, ih, List.replicate_succ]

/-- R110, R114: byte by byte, the text's own bytes, then the pad, and nothing from the width on. -/
theorem getElem?_padTo (width : Nat) (text : List Byte) (i : Nat) :
    (padTo width text)[i]? =
      if i < width then (if i < text.length then text[i]? else some 0x00#8) else none := by
  split
  case isFalse hi => exact List.getElem?_eq_none (by rw [length_padTo]; omega)
  case isTrue hi =>
    rw [padTo_eq_take_append]
    split
    · rw [List.getElem?_append_left (by simp; omega), List.getElem?_take_of_lt hi]
    · rw [List.getElem?_append_right (by simp; omega), List.getElem?_replicate_of_lt (by simp; omega)]

/-- R117: a text of the width or more is cut. -/
theorem padTo_of_le {width : Nat} {text : List Byte} (h : width ≤ text.length) :
    padTo width text = text.take width := by
  rw [padTo_eq_take_append, Nat.sub_eq_zero_of_le h, List.replicate_zero, List.append_nil]

/-- R117: a text up to the width is padded. -/
theorem padTo_of_ge {width : Nat} {text : List Byte} (h : text.length ≤ width) :
    padTo width text = text ++ List.replicate (width - text.length) 0x00#8 := by
  rw [padTo_eq_take_append, List.take_of_length_le h]

/-- R117: what is kept of a text stands first. -/
theorem take_padTo (width : Nat) (text : List Byte) :
    (padTo width text).take (min text.length width) = text.take (min text.length width) := by
  have hkept : min text.length width = (text.take width).length := by rw [List.length_take, Nat.min_comm]
  rw [padTo_eq_take_append, hkept, List.take_left, List.length_take, List.take_eq_take_min]

/-- R116: zero bytes after a text take the place of as many pad bytes. -/
theorem padTo_append_replicate (width : Nat) (text : List Byte) (n : Nat) :
    padTo width (text ++ List.replicate n 0x00#8) = padTo width text := by
  have hzeros : min (width - text.length) n + (width - (text.length + n)) = width - text.length := by omega
  rw [padTo_eq_take_append, padTo_eq_take_append, List.take_append, List.take_replicate, List.append_assoc,
    List.length_append, List.length_replicate, List.replicate_append_replicate, hzeros]

/-- R60: N bytes and no pixels are the payload of TENC N. -/
theorem wellFormed_tenc {n : BitVec 24} {p : Payload} (hpixels : p.pixels = []) (htext : p.text.length = n.toNat) :
    p.wellFormed (.tenc n) = true := by
  simp [Payload.wellFormed, hpixels, htext]

/-- R111: what TENC answers when its text is latched. -/
theorem exec_tenc {n : BitVec 24} {text : List Byte} {s : State} (hpixels : s.frameIn = [])
    (htext : text.length = n.toNat) :
    exec (.tenc n) { s with textIn := text } = .next (beginResponse (fixed128 text) 128#17 s) :=
  exec_latch_of_wellFormed (p := ⟨s.frameIn, text⟩) (wellFormed_tenc hpixels htext) s

/-- Settles O16: each clause is the fact about padding to any width, at width 128. -/
theorem fixedWidthText : Obligations.FixedWidthText := fun text =>
  ⟨length_padTo 128 text,
    fun i hi => (getElem?_padTo 128 text i).trans (if_pos (Nat.lt_succ_of_le hi)),
    fun h => padTo_of_ge h.le, padTo_of_le, take_padTo 128 text⟩

/-- Settles O17: appended zeros stand where padding stood. -/
theorem trailingNullsLookLikePadding : Obligations.TrailingNullsLookLikePadding :=
  padTo_append_replicate 128

/-- Settles O18: both texts are cut to the same response, and the accept step leaves nothing else of them. -/
theorem excessTextIsDiscarded : Obligations.ExcessTextIsDiscarded := by
  intro n m a b s hpixels ha hb hwideA hwideB hagree
  have hresponse : fixed128 b = fixed128 a :=
    calc fixed128 b = b.take 128 := padTo_of_le hwideB
      _ = a.take 128 := hagree.symm
      _ = fixed128 a := (padTo_of_le hwideA).symm
  exact ⟨_, exec_tenc hpixels ha, hresponse ▸ exec_tenc hpixels hb⟩

/-- Settles O21: the latched text is a payload of TENC, so TENC is accepted, and its response is read byte by byte. -/
theorem tencIsAccepted : Obligations.TencIsAccepted := by
  intro n s hpixels htext
  obtain ⟨t, hexec, haccepted, hresp⟩ := exec_accepts (wellFormed_tenc hpixels htext)
  refine ⟨t, hexec, haccepted, fun k => ?_⟩
  rw [hresp, ← htext]
  exact getElem?_padTo 128 s.textIn k

end Sys2Proof.Machine
end

section
/-! R132 to R134, R157: what a faulting word writes, and the progress of a block whose host sends the prescribed
payloads. -/

namespace Sys2Proof.Machine

/-- R130: the two fault codes as one choice. -/
theorem cmdFaultCode_eq_ite (c : CmdFault) : cmdFaultCode c = if c = .illegalOp then 0x01#8 else 0x02#8 := by
  cases c <;> rfl

/-- Settles O26: the step is the recorded fault, whose code is spelled out. -/
theorem faultingWordsAreOnlyRecorded : Obligations.FaultingWordsAreOnlyRecorded := by
  intro s o os es c hp hs ho hd
  rw [step_of_faultWord hs hp ho hd, recordFault, cmdFaultCode_eq_ite]

/-- R22, R34: under the invariant a block in Emit has a current byte, so a take there never stops. -/
theorem Inv.currentByte_ne_none {s : State} (h : Inv s) (hp : s.phase = .emit) : currentByte s ≠ none := by
  obtain ⟨b, hb⟩ := h.exists_currentByte hp
  simp [currentByte, h.emitPos hp, hb]

/-- R133, R146: the two stops of a step are excluded, one by the invariant and one by the host's duty. -/
theorem Inv.exists_step {s : State} (h : Inv s) (hobeys : HostObeys s) : ∃ t, step s = .next t := by
  cases hstep : step s with
  | next t => exact ⟨t, rfl⟩
  | refused r => cases hstep ▸ step_cases s
  | fault f =>
    cases hstep ▸ step_cases s with
    | noValue es hs hp hb => exact absurd hb (h.currentByte_ne_none hp)
    | wrongPayload es o os i hs hp ho hd hw =>
      exact absurd (hobeys o (by simp [ho]) i hd) (by simp [hw])

/-- R52: a step adds no command to the host's queue. -/
theorem offers_subset_of_step {s t : State} (hstep : step s = .next t) : t.offers ⊆ s.offers := by
  by_cases hkept : t.offers = s.offers
  · exact hkept ▸ List.Subset.refl t.offers
  · obtain ⟨-, o, es, -, htaken⟩ := commandsAreTakenInArrivalOrder s t hstep hkept
    exact htaken ▸ List.subset_cons_self o t.offers

/-- R146: the host's duty to the commands still to be taken outlasts a step. -/
theorem HostObeys.step {s t : State} (hobeys : HostObeys s) (hstep : step s = .next t) : HostObeys t :=
  fun o ho => hobeys o (offers_subset_of_step hstep ho)

/-- Settles O45, by induction over the steps: each one answers a next state, which keeps the invariant and the host's
duty. -/
theorem obedientHostIsNeverStopped : Obligations.ObedientHostIsNeverStopped := by
  intro s n h hobeys
  induction n generalizing s with
  | zero => exact ⟨s, rfl, h, hobeys⟩
  | succ n ih =>
    obtain ⟨u, hstep⟩ := h.exists_step hobeys
    obtain ⟨t, hrun, ht⟩ := ih u (everyStepKeepsTheInvariant s u h hstep) (hobeys.step hstep)
    exact ⟨t, (run_succ_of_next n hstep).trans hrun, ht⟩

end Sys2Proof.Machine
end

section
/-! R158: the step as an equation of its event, on the command port and on the output port. -/

namespace Sys2Proof.Machine

/-- Settles O24: the port decodes the word and latches the payload before it runs the command. -/
theorem stepRunsTheDecodedCommand : Obligations.StepRunsTheDecodedCommand := by
  intro s o os es i hp hs ho hd
  rw [step_offer_idle hs hp ho, acceptOffer, hd]
  rfl

/-- R60: the payload of zeros has the shape its word prescribes. -/
theorem zeroPayload_wellFormed {w : Word} {i : Instr} (hd : decode w = .command i) :
    (zeroPayload w).wellFormed i = true := by
  rw [zeroPayload, hd]
  cases i with
  | pack565 => rfl
  | fenc => exact wellFormed_fenc List.length_replicate
  | tenc n => exact wellFormed_tenc rfl List.length_replicate

/-- R60: a command word has 32 bits, so nothing is cut from it as it is placed. -/
theorem withFetchWord_of_lt {w : Nat} (hw : w < 2 ^ 32) (s : State) :
    s.withFetchWord 32 w = placeCommand (BitVec.ofNat 32 w) s := by
  rw [State.withFetchWord, Nat.mod_eq_of_lt hw]

/-- Settles O25: the placed word is the oldest offer in Idle, and its payload of zeros has the prescribed shape. -/
theorem placedCommandIsAccepted : Obligations.PlacedCommandIsAccepted := by
  intro s w i hw hd
  have hstep : step (s.withFetchWord 32 w) =
      exec i (latchPayload (zeroPayload (BitVec.ofNat 32 w)) { s with phase := .idle, pos := s.rlen }) := by
    rw [withFetchWord_of_lt hw]
    exact stepRunsTheDecodedCommand (placeCommand _ s) ⟨_, _⟩ s.offers s.schedule i rfl rfl rfl hd
  have haccept := exec_latch_of_wellFormed (zeroPayload_wellFormed hd) { s with phase := .idle, pos := s.rlen }
  exact ⟨hstep, _, hstep.trans haccept, rfl, toNat_responseLength i⟩

/-- R154: an offer in Emit is held. -/
theorem step_of_offer_held {s : State} {es : List Event} (hs : s.schedule = .move .offer :: es)
    (hp : s.phase = .emit) : step s = .next { s with schedule := es } := by
  simp [step_cons hs, handleEvent, hostOffer, hp]

/-- R158: an offer with nothing to offer is no step, in Idle and in Emit. -/
theorem step_of_offer_nothing {s : State} {es : List Event} (hs : s.schedule = .move .offer :: es)
    (ho : s.offers = []) : step s = .next { s with schedule := es } := by
  cases hp : s.phase with
  | idle => simp [step_cons hs, handleEvent, hostOffer, hp, ho]
  | emit => rw [step_of_offer_held hs hp, hp]

/-- R158: a take in Idle is no step. -/
theorem step_of_take_idle {s : State} {es : List Event} (hs : s.schedule = .move .take :: es)
    (hp : s.phase = .idle) : step s = .next { s with schedule := es } := by
  simp [step_cons hs, handleEvent, hostTake, hp]

/-- Settles O27: the three events that are no step, and the step that has no event. -/
theorem eventsThatAreNoStep : Obligations.EventsThatAreNoStep := by
  intro s es
  refine ⟨step_of_offer_held, step_of_take_idle, step_of_offer_nothing, fun hs => ?_⟩
  rw [step, nextEvent, hs]

/-- R27: a STATUS read always answers. -/
theorem step_of_readStatus {s : State} {es : List Event} (hs : s.schedule = .move .readStatus :: es) :
    step s = .next (hostReadStatus { s with schedule := es }) :=
  step_cons hs

/-- R22, R158: a take in Emit that answers a next state found a byte of RESP at POS and emitted it. -/
theorem next_of_take {s t : State} {es : List Event} (hs : s.schedule = .move .take :: es) (hp : s.phase = .emit)
    (hstep : step s = .next t) :
    ∃ b, s.pos.toNat < s.rlen.toNat ∧ s.resp.read s.pos.toNat = some b ∧
      t = emitByte b { s with schedule := es } := by
  cases stepCase_of_next hstep with
  | emitted es' b hs' hp' hk hb =>
    cases hs.symm.trans hs'
    exact ⟨b, hk, hb, rfl⟩
  | waits hs' | statusRead _ hs' | resetTo _ _ hs' => cases hs.symm.trans hs'
  | held _ hs' | nothingOffered _ hs' | faulted _ _ _ _ hs' | accepted _ _ _ _ hs' => cases hs.symm.trans hs'
  | takenIdle _ _ hp' => cases hp.symm.trans hp'

end Sys2Proof.Machine
end

section
/-! R150 to R152: what a reset does to the step it falls in and to the steps after it. -/

namespace Sys2Proof.Machine

@[simp] theorem hostReset_emitted (ms : List HostMove) (s : State) : (hostReset ms s).emitted = s.emitted := by
  obtain ⟨vs, h, -⟩ := hostReset_frame ms s; rw [h]; rfl
@[simp] theorem hostReset_schedule (ms : List HostMove) (s : State) : (hostReset ms s).schedule = s.schedule := by
  obtain ⟨vs, h, -⟩ := hostReset_frame ms s; rw [h]; rfl

/-- Settles O40: the reset is `resetBlock` but for the STATUS reads of its step. -/
theorem resetWinsTheStep : Obligations.ResetWinsTheStep := by
  intro s ms es hs
  obtain ⟨reads, hreset, hlength, hvalues⟩ := hostReset_frame ms { s with schedule := es }
  exact ⟨_, reads, (step_of_reset hs).trans (congrArg _ hreset), rfl, rfl, rfl, rfl, rfl, rfl, rfl, rfl, rfl,
    hlength, hvalues⟩

/-- What R151 says of the block between a reset and the next accepted command: no response is in flight, and none is
held. -/
structure NoResponse (s : State) : Prop where
  phase : s.phase = .idle
  rlen : s.rlen = 0#17
  pos : s.pos = 0#17

/-- R150: a reset leaves no response, whatever falls in the same step. -/
theorem noResponse_hostReset (ms : List HostMove) (s : State) : NoResponse (hostReset ms s) :=
  ⟨hostReset_phase ms s, hostReset_rlen ms s, hostReset_pos ms s⟩

/-- R151, R132: with no response held, an event puts nothing out and leaves no response, if the word it offers, if any,
faults. -/
theorem NoResponse.step {s : State} {e : Event} {es : List Event} (h : NoResponse s) (hs : s.schedule = e :: es)
    (hfaults : ∀ o ∈ s.offers.take ([e].count (.move .offer)), ∃ c, decode o.word = .fault c) :
    ∃ u, step s = .next u ∧ NoResponse u ∧ u.emitted = s.emitted ∧
      u.offers = s.offers.drop ([e].count (.move .offer)) ∧ u.schedule = es := by
  obtain ⟨hphase, hrlen, hpos⟩ := h
  match e with
  | .reset ms =>
    exact ⟨_, step_of_reset hs, noResponse_hostReset _ _, hostReset_emitted _ _, hostReset_offers _ _,
      hostReset_schedule _ _⟩
  | .move .take => exact ⟨_, step_of_take_idle hs hphase, ⟨hphase, hrlen, hpos⟩, rfl, rfl, rfl⟩
  | .move .readStatus => exact ⟨_, step_of_readStatus hs, ⟨hphase, hrlen, hpos⟩, rfl, rfl, rfl⟩
  | .move .offer =>
    cases ho : s.offers with
    | nil => exact ⟨_, step_of_offer_nothing hs ho, ⟨hphase, hrlen, hpos⟩, rfl, ho, rfl⟩
    | cons o os =>
      obtain ⟨c, hd⟩ := hfaults o (by simp [ho])
      exact ⟨_, step_of_faultWord hs hphase ho hd, ⟨hphase, hrlen, hpos⟩, rfl, rfl, rfl⟩

/-- R151: the same of any events among which every word offered faults. -/
theorem NoResponse.run {s : State} {events rest : List Event} (h : NoResponse s) (hs : s.schedule = events ++ rest)
    (hfaults : ∀ o ∈ s.offers.take (events.count (.move .offer)), ∃ c, decode o.word = .fault c) :
    ∃ t, core.run events.length s = .next t ∧ NoResponse t ∧ t.emitted = s.emitted ∧
      t.offers = s.offers.drop (events.count (.move .offer)) ∧ t.schedule = rest := by
  induction events generalizing s with
  | nil => exact ⟨s, rfl, h, rfl, rfl, hs⟩
  | cons e es ih =>
    have hcount : (e :: es).count (.move .offer) = [e].count (.move .offer) + es.count (.move .offer) :=
      List.count_append (l₁ := [e])
    rw [hcount, List.take_add] at hfaults
    obtain ⟨u, hstep, hu, hemitted, hoffers, hschedule⟩ :=
      h.step hs fun o ho => hfaults o (List.mem_append_left _ ho)
    obtain ⟨t, hrun, ht, hemittedT, hoffersT, hrest⟩ :=
      ih hu hschedule fun o ho => hfaults o (List.mem_append_right _ (hoffers ▸ ho))
    refine ⟨t, (run_succ_of_next _ hstep).trans hrun, ht, hemittedT.trans hemitted, ?_, hrest⟩
    rw [hoffersT, hoffers, List.drop_drop, hcount]

/-- Settles O41: the reset leaves no response, and none begins after it. -/
theorem resetAbandonsTheResponse : Obligations.ResetAbandonsTheResponse := by
  intro s ms events rest hs hfaults
  obtain ⟨t, hrun, ht, hemitted, hoffers, hrest⟩ :=
    (noResponse_hostReset ms { s with schedule := events ++ rest }).run (hostReset_schedule _ _)
      (by rwa [hostReset_offers])
  rw [hostReset_emitted] at hemitted
  rw [hostReset_offers] at hoffers
  exact ⟨t, (run_succ_of_next _ (step_of_reset hs)).trans hrun, hemitted, ht.phase, ht.rlen, ht.pos, hoffers, hrest⟩

end Sys2Proof.Machine
end

section
/-! R155, R158, R160: what leaves the output port, take by take and whatever the host does in between. -/

namespace Sys2Proof.Machine

/-- Settles O31: a take in Emit by its inversion, every other step by the cases of a step. -/
theorem outputGrowsOnlyByTakes : Obligations.OutputGrowsOnlyByTakes := by
  intro s t hstep
  refine ⟨fun es hs hp => ?_, fun hnoTake => ?_⟩
  · obtain ⟨b, hk, hread, rfl⟩ := next_of_take hs hp hstep
    exact ⟨⟨_, hread, rfl⟩, pos_succ_toNat hk, rfl, rfl⟩
  · cases stepCase_of_next hstep with
    | waits | held | nothingOffered | faulted | takenIdle | statusRead => exact ⟨rfl, .inl rfl⟩
    | accepted es o os i hs hp ho hd => exact ⟨rfl, .inr ⟨rfl, .inr ⟨o, os, es, i, hp, hs, ho, hd⟩⟩⟩
    | emitted es b hs hp => simp [hp, hs] at hnoTake
    | resetTo es ms hs => exact ⟨hostReset_emitted _ _, .inr ⟨hostReset_pos _ _, .inl ⟨ms, es, hs⟩⟩⟩

/-- R43, R86: byte k of a response of `rlen` bytes on the output port, with its two flags in numbers. -/
def outByteAt (rlen k : Nat) (b : Byte) : OutByte where
  byte := b
  lastInBurst := decide ((rlen = 115200 ∧ (k + 1) % 1024 = 0) ∨ k + 1 = rlen)
  lastInResponse := decide (k + 1 = rlen)

/-- R158: what an emit step puts out is byte POS of the response. -/
theorem emitByte_emitted_eq_outByteAt (b : Byte) (s : State) :
    (emitByte b s).emitted = outByteAt s.rlen.toNat s.pos.toNat b :: s.emitted := by
  simp only [emitByte_emitted, outByteAt, ← lastInBurst_iff, Bool.decide_eq_true, lastInResponse, beq_eq_decide]

/-- Settles O28: under the invariant there is a byte to take and POS does not wrap. -/
theorem takeEmitsTheCurrentByte : Obligations.TakeEmitsTheCurrentByte := by
  intro s es h hp hs
  have hk : s.pos.toNat < s.rlen.toNat := h.emitPos hp
  obtain ⟨b, hb⟩ := h.exists_currentByte hp
  refine ⟨b, _, hb, step_of_take hs hp hk hb, emitByte_emitted_eq_outByteAt b _, pos_succ_toNat hk, ?_, rfl⟩
  simp only [emitByte_phase, pos_succ_eq_rlen hk, hp]

/-- `out` is the next bytes of the response in flight, in order and with their flags. -/
def NextBytes (s : State) (out : List OutByte) : Prop :=
  ∀ j, j < out.length →
    ∃ b, s.resp.read (s.pos.toNat + j) = some b ∧ out[j]? = some (outByteAt s.rlen.toNat (s.pos.toNat + j) b)

/-- What a run with a response in flight does, however its moves are mixed (R155, R160): one byte for each take, one
value for each STATUS read, and nothing else. -/
structure Delivers (s t : State) (takes reads : Nat) : Prop where
  output : ∃ out : List OutByte, t.emitted = out.reverse ++ s.emitted ∧ out.length = takes ∧ NextBytes s out
  pos : t.pos.toNat = s.pos.toNat + takes
  statusReads : t.statusReads.length = s.statusReads.length + reads
  resp : t.resp = s.resp
  rlen : t.rlen = s.rlen
  lastStatus : t.lastStatus = s.lastStatus
  stickyFault : t.stickyFault = s.stickyFault
  offers : t.offers = s.offers

/-- Where no take falls, nothing is put out. -/
theorem exists_nextBytes_nil (s : State) :
    ∃ out : List OutByte, s.emitted = out.reverse ++ s.emitted ∧ out.length = 0 ∧ NextBytes s out :=
  ⟨[], rfl, rfl, fun _ hj => absurd hj (Nat.not_lt_zero _)⟩

/-- R158: the byte a take puts out is the next one. -/
theorem nextBytes_singleton {s : State} {b : Byte} (hb : s.resp.read s.pos.toNat = some b) :
    NextBytes s [outByteAt s.rlen.toNat s.pos.toNat b] := by
  intro j hj
  obtain rfl : j = 0 := Nat.lt_one_iff.mp hj
  exact ⟨b, hb, rfl⟩

/-- The next bytes from where the bytes before them end are the next bytes too. -/
theorem NextBytes.append {s u : State} {out out' : List OutByte} (h : NextBytes s out) (h' : NextBytes u out')
    (hpos : u.pos.toNat = s.pos.toNat + out.length) (hresp : u.resp = s.resp) (hrlen : u.rlen = s.rlen) :
    NextBytes s (out ++ out') := by
  intro j hj
  rcases Nat.lt_or_ge j out.length with hlt | hge
  · rw [List.getElem?_append_left hlt]
    exact h j hlt
  · rw [List.length_append] at hj
    have hindex : s.pos.toNat + out.length + (j - out.length) = s.pos.toNat + j := by omega
    have hnext := h' (j - out.length) (by omega)
    rwa [hpos, hresp, hrlen, hindex, ← List.getElem?_append_right hge] at hnext

/-- What one part of a run puts out and what the next part puts out add up. -/
theorem Delivers.trans {s u t : State} {m n j k : Nat} (h : Delivers s u m j) (h' : Delivers u t n k) :
    Delivers s t (m + n) (j + k) where
  output := by
    obtain ⟨out, hemitted, rfl, hnext⟩ := h.output
    obtain ⟨out', hemitted', rfl, hnext'⟩ := h'.output
    refine ⟨out ++ out', ?_, List.length_append, hnext.append hnext' h.pos h.resp h.rlen⟩
    rw [hemitted', hemitted, List.reverse_append, List.append_assoc]
  pos := by rw [h'.pos, h.pos, Nat.add_assoc]
  statusReads := by rw [h'.statusReads, h.statusReads, Nat.add_assoc]
  resp := h'.resp.trans h.resp
  rlen := h'.rlen.trans h.rlen
  lastStatus := h'.lastStatus.trans h.lastStatus
  stickyFault := h'.stickyFault.trans h.stickyFault
  offers := h'.offers.trans h.offers

/-- R34: PHASE is Emit exactly when a byte of the response is left. -/
theorem Inv.phase_emit_iff {s : State} (h : Inv s) : s.phase = .emit ↔ s.pos.toNat < s.rlen.toNat := by
  refine ⟨h.emitPos, fun hk => ?_⟩
  cases hp : s.phase with
  | idle => exact absurd (congrArg BitVec.toNat (h.idlePos hp)) hk.ne
  | emit => rfl

/-- R34: PHASE is Idle exactly when no byte of the response is left. -/
theorem Inv.phase_idle_iff {s : State} (h : Inv s) : s.phase = .idle ↔ s.pos.toNat = s.rlen.toNat := by
  refine ⟨fun hp => congrArg BitVec.toNat (h.idlePos hp), fun hdone => ?_⟩
  cases hp : s.phase with
  | idle => rfl
  | emit => exact absurd hdone (h.emitPos hp).ne

/-- R154, R155, R158: one host move, a take only while a byte is left, and after the last byte nothing to offer. -/
theorem Inv.step_of_move {s : State} {m : HostMove} {es : List Event} (h : Inv s)
    (hs : s.schedule = .move m :: es) (hleft : s.pos.toNat + [m].count .take ≤ s.rlen.toNat)
    (hheld : s.offers = [] ∨ s.pos.toNat + [m].count .take < s.rlen.toNat) :
    ∃ u, step s = .next u ∧ Delivers s u ([m].count .take) ([m].count .readStatus) ∧ u.schedule = es := by
  cases m with
  | offer =>
    refine ⟨{ s with schedule := es }, ?_, ⟨exists_nextBytes_nil s, rfl, rfl, rfl, rfl, rfl, rfl, rfl⟩, rfl⟩
    exact hheld.elim (step_of_offer_nothing hs) fun hk => step_of_offer_held hs (h.phase_emit_iff.mpr hk)
  | readStatus =>
    exact ⟨_, step_of_readStatus hs, ⟨exists_nextBytes_nil s, rfl, rfl, rfl, rfl, rfl, rfl, rfl⟩, rfl⟩
  | take =>
    have hk : s.pos.toNat < s.rlen.toNat := hleft
    have hp := h.phase_emit_iff.mpr hk
    obtain ⟨b, hb⟩ := h.exists_currentByte hp
    exact ⟨_, step_of_take hs hp hk hb,
      ⟨⟨_, emitByte_emitted_eq_outByteAt b _, rfl, nextBytes_singleton hb⟩, pos_succ_toNat hk, rfl, rfl, rfl, rfl,
        rfl, rfl⟩, rfl⟩

/-- R155, R160: the same of any host moves, with at most as many takes as bytes are left. -/
theorem Inv.run_of_moves {s : State} {moves : List HostMove} {rest : List Event} (h : Inv s)
    (hs : s.schedule = moves.map Event.move ++ rest) (hleft : s.pos.toNat + moves.count .take ≤ s.rlen.toNat)
    (hheld : s.offers = [] ∨ s.pos.toNat + moves.count .take < s.rlen.toNat) :
    ∃ t, core.run moves.length s = .next t ∧ Delivers s t (moves.count .take) (moves.count .readStatus) ∧
      t.schedule = rest := by
  induction moves generalizing s with
  | nil => exact ⟨s, rfl, ⟨exists_nextBytes_nil s, rfl, rfl, rfl, rfl, rfl, rfl, rfl⟩, hs⟩
  | cons m moves ih =>
    have hcount (a : HostMove) : (m :: moves).count a = [m].count a + moves.count a :=
      List.count_append (l₁ := [m])
    rw [hcount] at hleft hheld
    obtain ⟨u, hstep, hu, hschedule⟩ := h.step_of_move hs (by omega) (hheld.imp_right (by omega))
    obtain ⟨t, hrun, ht, hrest⟩ := ih (everyStepKeepsTheInvariant s u h hstep) hschedule
      (by rw [hu.pos, hu.rlen]; omega)
      (hheld.imp hu.offers.trans fun hk => by rw [hu.pos, hu.rlen]; omega)
    rw [hcount, hcount]
    exact ⟨t, (run_succ_of_next _ hstep).trans hrun, hu.trans ht, hrest⟩

/-- Settles O30: the run delivers, and PHASE at its end is the invariant's. -/
theorem interleavedMovesDoNotChangeTheOutput : Obligations.InterleavedMovesDoNotChangeTheOutput := by
  intro s moves rest h _ hs hleft hheld
  obtain ⟨t, hrun, ht, hrest⟩ := h.run_of_moves hs hleft hheld
  have hphase := (h.run hrun).phase_idle_iff
  rw [ht.pos, ht.rlen] at hphase
  exact ⟨t, hrun, ht.output, ht.pos, hphase, ht.statusReads, ht.resp, ht.rlen, ht.lastStatus, ht.stickyFault,
    ht.offers, hrest⟩

end Sys2Proof.Machine
end
